-- ==== Sys2Proof/Word.lean ====
section
/-! DEFINITION. The bit-vector widths of the block (00_scope.md R1, R5) and the type of its text. -/

namespace Sys2Proof

/-- One byte of the instruction stream, bits 7 to 0 (R5). -/
abbrev Byte := BitVec 8

/-- A 16-bit quantity: an address, a word literal (R4 `ADDR_BITS`). -/
abbrev Word := BitVec 16

/-- Text the block produces (R5), as its list of characters. -/
abbrev Text := List Char

end Sys2Proof
end

