-- ==== Sys2Proof/Config.lean ====
section
/-! DEFINITION. The configuration of the block: the parameters that 00_scope.md R4 calls arguments of a model,
and the ROM's descriptor (10_state.md R11). Their default values are in Machine/Rom.lean. -/

namespace Sys2Proof

/-- The two layouts of format 2 (R11 field `lit`; conflict C5, log 13). -/
inductive Lit where
  | byte
  | word
  deriving DecidableEq, Repr

/-- A descriptor's layout id (R11), the `lit` field carried by format 2, where alone it means anything. -/
inductive Format where
  /-- id -1: no decode routine. -/
  | unknown
  /-- id 0: reserved opcode. -/
  | reserved
  /-- id 1: two operands. -/
  | twoOperand
  /-- id 2: opcode and literal. -/
  | literal (lit : Lit)
  /-- id 3: no operand. -/
  | noOperand
  /-- id 4: page-relative branch. -/
  | branch
  /-- id 5: one operand. -/
  | oneOperand
  /-- id 6: MOVE. -/
  | move
  /-- id 7: screen-format escape. -/
  | screen
  deriving DecidableEq, Repr

/-- The number the spec gives a format (R11). -/
def Format.id : Format → Int
  | .unknown => -1
  | .reserved => 0
  | .twoOperand => 1
  | .literal _ => 2
  | .noOperand => 3
  | .branch => 4
  | .oneOperand => 5
  | .move => 6
  | .screen => 7

/-- OpcodeDescriptor (R11): the routine is a function of `format`, so it has no field. -/
structure Descriptor where
  mnemonic : Text
  lo : Byte
  hi : Byte
  format : Format
  deriving DecidableEq, Repr

/-- `MOVE_MAP` (R203): which bit of the format-6 opcode byte is which named flag. R4 gives each as a bit number in the
opcode byte, whose bits are 7 to 0 (R5), so a number of 8 or more is no value of it. -/
structure MoveMap where
  numimm : Fin 8
  selB : Fin 8
  selC : Fin 8
  idxB : Fin 8
  idxC : Fin 8
  vreg : Fin 8
  deriving DecidableEq, Repr

/-- The arguments of R4. A constant of the machine, never a field of its state (R12). -/
structure Config where
  /-- `OPTABLE`, the decoder ROM: the order of the list is part of it (R10). -/
  optable : List Descriptor
  /-- `MOVE_MAP` (R203). -/
  moveMap : MoveMap
  /-- `VREG_MASK` (R206). -/
  vregMask : Word
  /-- `WIDTH_MARK` (R232). -/
  widthMark : Char
  /-- `MNEM_WIDTH` (R232). -/
  mnemWidth : Nat
  /-- `ADDR_SEP` (R232). -/
  addrSep : Text
  /-- `DIAG` (R234). -/
  diag : Byte → Text

/-- FREE VALUE (log 25): what `dec1` prints for a number above 9. R6 defines `dec1` for 0 to 9 only; under the
default `VREG_MASK` no larger number arises. -/
opaque Config.dec1Beyond : Nat → Char

end Sys2Proof
end

