-- ==== Sys2Proof/Machine/Rom.lean ====
section
/-! DEFINITION. The decoder ROM's default contents and the other default parameters (30_encoding.md R58,
00_scope.md R4), the constants the source fixes, the lookup (49_dispatcher.md R225), and what a ROM must meet. -/

namespace Sys2Proof

/-- `SCRATCH_BASE` (R4): base of the scratchpad window. -/
def scratchBase : Word := 0x8300

/-- `PAGE_MASK` (R4): keeps the page of an address. -/
def pageMask : Word := 0xE000

/-- `DISP_MASK` (R4): keeps the 13-bit displacement. -/
def dispMask : Word := 0x1FFF

/-- `EXT_THRESHOLD` (R4): a 12-bit offset at or above it is the extended escape. -/
def extThreshold : Word := 0x0F00

/-- `MAXLEN` (R4): the longest instruction, in bytes. -/
def maxLen : Nat := 13

/-- Descriptors 0 to 19 (R58), opcode bytes 0x00 to 0x13. UNVERIFIED but for the anchored bytes (log 4). -/
def romLow : List Descriptor :=
  [ ⟨"RTN".toList, 0x00, 0x00, .noOperand⟩,
    ⟨"RTNC".toList, 0x01, 0x01, .noOperand⟩,
    ⟨"RAND".toList, 0x02, 0x02, .literal .byte⟩,
    ⟨"SCAN".toList, 0x03, 0x03, .noOperand⟩,
    ⟨"BACK".toList, 0x04, 0x04, .literal .byte⟩,
    ⟨"B".toList, 0x05, 0x05, .literal .word⟩,
    ⟨"CALL".toList, 0x06, 0x06, .literal .word⟩,
    ⟨"ALL".toList, 0x07, 0x07, .literal .byte⟩,
    ⟨"FMT".toList, 0x08, 0x08, .screen⟩,
    ⟨"H".toList, 0x09, 0x09, .noOperand⟩,
    ⟨"GT".toList, 0x0A, 0x0A, .noOperand⟩,
    ⟨"EXIT".toList, 0x0B, 0x0B, .noOperand⟩,
    ⟨"CARRY".toList, 0x0C, 0x0C, .noOperand⟩,
    ⟨"OVF".toList, 0x0D, 0x0D, .noOperand⟩,
    ⟨"PARSE".toList, 0x0E, 0x0E, .literal .byte⟩,
    ⟨"XML".toList, 0x0F, 0x0F, .literal .byte⟩,
    ⟨"CONT".toList, 0x10, 0x10, .noOperand⟩,
    ⟨"EXEC".toList, 0x11, 0x11, .noOperand⟩,
    ⟨"RTNB".toList, 0x12, 0x12, .noOperand⟩,
    ⟨"RTGR".toList, 0x13, 0x13, .noOperand⟩ ]

/-- Descriptors 20 to 36 (R58), opcode bytes 0x14 to 0x9F (log 4). -/
def romMiddle : List Descriptor :=
  [ ⟨"XGPL".toList, 0x14, 0x1F, .reserved⟩,
    ⟨"MOVE".toList, 0x20, 0x3F, .move⟩,
    ⟨"BR".toList, 0x40, 0x5F, .branch⟩,
    ⟨"BS".toList, 0x60, 0x7F, .branch⟩,
    ⟨"ABS".toList, 0x80, 0x81, .oneOperand⟩,
    ⟨"NEG".toList, 0x82, 0x83, .oneOperand⟩,
    ⟨"INV".toList, 0x84, 0x85, .oneOperand⟩,
    ⟨"CLR".toList, 0x86, 0x87, .oneOperand⟩,
    ⟨"FETCH".toList, 0x88, 0x89, .oneOperand⟩,
    ⟨"CASE".toList, 0x8A, 0x8B, .oneOperand⟩,
    ⟨"PUSH".toList, 0x8C, 0x8D, .oneOperand⟩,
    ⟨"CZ".toList, 0x8E, 0x8F, .oneOperand⟩,
    ⟨"INC".toList, 0x90, 0x91, .oneOperand⟩,
    ⟨"DEC".toList, 0x92, 0x93, .oneOperand⟩,
    ⟨"INCT".toList, 0x94, 0x95, .oneOperand⟩,
    ⟨"DECT".toList, 0x96, 0x97, .oneOperand⟩,
    ⟨"XGPL".toList, 0x98, 0x9F, .reserved⟩ ]

/-- Descriptors 37 to 60 (R58), opcode bytes 0xA0 to 0xFF (log 4). -/
def romHigh : List Descriptor :=
  [ ⟨"ADD".toList, 0xA0, 0xA3, .twoOperand⟩,
    ⟨"SUB".toList, 0xA4, 0xA7, .twoOperand⟩,
    ⟨"MUL".toList, 0xA8, 0xAB, .twoOperand⟩,
    ⟨"DIV".toList, 0xAC, 0xAF, .twoOperand⟩,
    ⟨"AND".toList, 0xB0, 0xB3, .twoOperand⟩,
    ⟨"OR".toList, 0xB4, 0xB7, .twoOperand⟩,
    ⟨"XOR".toList, 0xB8, 0xBB, .twoOperand⟩,
    ⟨"ST".toList, 0xBC, 0xBF, .twoOperand⟩,
    ⟨"EX".toList, 0xC0, 0xC3, .twoOperand⟩,
    ⟨"CH".toList, 0xC4, 0xC7, .twoOperand⟩,
    ⟨"CHE".toList, 0xC8, 0xCB, .twoOperand⟩,
    ⟨"CGT".toList, 0xCC, 0xCF, .twoOperand⟩,
    ⟨"CGE".toList, 0xD0, 0xD3, .twoOperand⟩,
    ⟨"CEQ".toList, 0xD4, 0xD7, .twoOperand⟩,
    ⟨"CLOG".toList, 0xD8, 0xDB, .twoOperand⟩,
    ⟨"SRA".toList, 0xDC, 0xDF, .twoOperand⟩,
    ⟨"SLL".toList, 0xE0, 0xE3, .twoOperand⟩,
    ⟨"SRL".toList, 0xE4, 0xE7, .twoOperand⟩,
    ⟨"SRC".toList, 0xE8, 0xEB, .twoOperand⟩,
    ⟨"COINC".toList, 0xEC, 0xEF, .twoOperand⟩,
    ⟨"XGPL".toList, 0xF0, 0xF3, .reserved⟩,
    ⟨"I/O".toList, 0xF4, 0xF7, .twoOperand⟩,
    ⟨"SWGR".toList, 0xF8, 0xFB, .twoOperand⟩,
    ⟨"XGPL".toList, 0xFC, 0xFF, .reserved⟩ ]

/-- The default `OPTABLE` (R58). -/
def defaultTable : List Descriptor := romLow ++ romMiddle ++ romHigh

/-- The default `MOVE_MAP` (R203; DESIGN CHOICE of the spec, log 5). -/
def defaultMoveMap : MoveMap :=
  { numimm := 0, selB := 4, selC := 3, idxB := 3, idxC := 2, vreg := 3 }

/-- `hexDigit n`: the uppercase hexadecimal digit of `n mod 16` (R5, R61). -/
def hexDigit (n : Nat) : Char :=
  if n % 16 < 10 then Char.ofNat (48 + n % 16) else Char.ofNat (55 + n % 16)

/-- `hex2` (R6): two uppercase hexadecimal digits. -/
def hex2 (v : Byte) : Text := [hexDigit (v.toNat / 16), hexDigit v.toNat]

/-- `hex4` (R6): four uppercase hexadecimal digits. -/
def hex4 (v : Word) : Text :=
  [hexDigit (v.toNat / 4096), hexDigit (v.toNat / 256), hexDigit (v.toNat / 16), hexDigit v.toNat]

/-- `dec1` (R6): one decimal digit, defined by the spec for 0 to 9 (log 25). -/
def dec1 (n : Nat) : Text := if n ≤ 9 then [Char.ofNat (48 + n)] else [Config.dec1Beyond n]

/-- `padr` (R6): the text followed by spaces up to `width` characters. -/
def padr (t : Text) (width : Nat) : Text := t ++ List.replicate (width - t.length) ' '

/-- The default `DIAG` (R234; DESIGN CHOICE of the spec, log 8). -/
def defaultDiag (op : Byte) : Text := "Invalid opcode >".toList ++ hex2 op

/-- The block with the default parameters (R4): the configuration `step` runs. -/
def Config.default : Config :=
  { optable := defaultTable, moveMap := defaultMoveMap, vregMask := 0x0007, widthMark := 'D',
    mnemWidth := 6, addrSep := " ".toList, diag := defaultDiag }

/-- The descriptor's range contains the opcode byte: unsigned, both bounds inclusive (R225). -/
def Descriptor.covers (d : Descriptor) (op : Byte) : Bool := d.lo ≤ op && op ≤ d.hi

/-- The scan of R225 from entry number `i` on. -/
def lookupFrom (op : Byte) : Nat → List Descriptor → Option (Nat × Descriptor)
  | _, [] => none
  | i, d :: ds => if d.covers op then some (i, d) else lookupFrom op (i + 1) ds

/-- `Lookup` (R225): the first entry whose range contains the opcode byte, with its index. -/
def lookup (table : List Descriptor) (op : Byte) : Option (Nat × Descriptor) :=
  lookupFrom op 0 table

/-- The flattened ROM `DEC[b]` of R13: for each opcode byte the index of its descriptor, or none. -/
def flatRom (table : List Descriptor) : List (Option Nat) :=
  (List.range 256).map fun b => table.findIdx? fun d => d.covers (BitVec.ofNat 8 b)

/-- Entry `i` of the default ROM; the value for an `i` outside the ROM is never asked for. -/
def romEntry (i : Nat) : Descriptor := defaultTable.getD i ⟨[], 0, 0, .unknown⟩

/-- `TableTotal` (R55): every byte is in some descriptor's range, and that descriptor has a routine. -/
def Config.tableTotal (cfg : Config) : Bool :=
  (List.range 256).all fun b =>
    match lookup cfg.optable (BitVec.ofNat 8 b) with
    | none => false
    | some (_, d) => d.format ≠ .unknown

/-- What lookup of `op` must give (R57): this mnemonic and this format. -/
def Config.anchor (cfg : Config) (op : Byte) (mnemonic : Text) (format : Format) : Bool :=
  match lookup cfg.optable op with
  | none => false
  | some (_, d) => d.mnemonic = mnemonic && d.format = format

/-- `Anchors` (R57): the five entries the source fixes. -/
def Config.anchors (cfg : Config) : Bool :=
  cfg.anchor 0x00 "RTN".toList .noOperand && cfg.anchor 0x04 "BACK".toList (.literal .byte) &&
  cfg.anchor 0x05 "B".toList (.literal .word) && cfg.anchor 0x14 "XGPL".toList .reserved &&
  cfg.anchor 0x40 "BR".toList .branch

/-- A visible character of a mnemonic: `!` to `~` of ASCII, so no blank, tab, newline or other control character. Which
characters are visible is the model's choice (DESIGN CHOICE, log 31): R11 and D27 say only `visible` and `no blanks`. -/
def visibleChar (c : Char) : Bool := 0x20 < c.toNat && c.toNat < 0x7F

/-- A descriptor's legal values (R11): 1 to 5 visible characters (log 31), `lo <= hi`. -/
def Descriptor.legal (d : Descriptor) : Bool :=
  1 ≤ d.mnemonic.length && d.mnemonic.length ≤ 5 && d.mnemonic.all visibleChar && d.lo ≤ d.hi

/-- A catch-all entry: a reserved sub-range (R56), or the fallback of format -1 (conflict C6; DEDUCED, log 32). Every
other entry is a specific one. -/
def Descriptor.catchAll (d : Descriptor) : Bool := d.format = .reserved || d.format = .unknown

/-- Some opcode byte is in both ranges (R225: both bounds inclusive). -/
def Descriptor.overlaps (d e : Descriptor) : Bool := d.lo ≤ e.hi && e.lo ≤ d.hi

/-- The order R56 asks for: specific ranges precede any catch-all range. It is asked of ranges that overlap, since only
there the order decides anything, and the default table has disjoint ranges in another order (DEDUCED, log 32). -/
def Config.specificFirst (cfg : Config) : Bool :=
  decide (cfg.optable.Pairwise fun d e => d.catchAll → d.overlaps e → e.catchAll)

/-- The format an opcode byte resolves to (R225), or none where no entry covers it. -/
def Config.formatOf (cfg : Config) (op : Byte) : Option Format := (lookup cfg.optable op).map fun e => e.2.format

/-- What construction requires of the ROM before the first transaction (R280: rules R55 to R57, with R11). R56 adds the
order of the entries, and that the entries of format 0 and the entries named `XGPL` are the same; R57 that exactly one
opcode uses format 7 and that format 6 is `MOVE`, which is read both ways, with R201, and asks that some opcode uses it
(DEDUCED, log 34). -/
def Config.romValid (cfg : Config) : Bool :=
  cfg.tableTotal && cfg.anchors && cfg.optable.all Descriptor.legal && cfg.specificFirst &&
  cfg.optable.all (fun d => (d.format = .reserved) == (d.mnemonic = "XGPL".toList)) &&
  cfg.optable.all (fun d => (d.format = .move) == (d.mnemonic = "MOVE".toList)) &&
  (List.range 256).any (fun b => cfg.formatOf (BitVec.ofNat 8 b) = some .move) &&
  (List.range 256).countP (fun b => cfg.formatOf (BitVec.ofNat 8 b) = some .screen) == 1

end Sys2Proof
end

