-- ==== Sys2Proof/Machine/Flags.lean ====
section
/-! DEFINITION. The flags that format decoders read from the opcode byte (30_encoding.md R53, 47_format6_move.md R203),
and the one flag of the block, the width flag (10_state.md R17). -/

namespace Sys2Proof

/-- `W`, bit 0 of a format-1 or format-5 opcode byte: what those two formats write to the width flag (R17). -/
def wordFlag (op : Byte) : Bool := op.getLsbD 0

/-- `I`, bit 1 of a format-1 opcode byte: the source is a literal (R110). -/
def immediateFlag (op : Byte) : Bool := op.getLsbD 1

/-- The top bit of an operand's first byte: more than one byte (R54, R81, R82). -/
def multiByte (hd : Byte) : Bool := hd.getLsbD 7

/-- `X` of an operand's first byte, mask 0x4000 of `W` (R54). -/
def indexedBit (hd : Byte) : Bool := hd.getLsbD 6

/-- `V` of an operand's first byte, mask 0x2000 of `W` (R54). -/
def vdpBit (hd : Byte) : Bool := hd.getLsbD 5

/-- `I` of an operand's first byte, mask 0x1000 of `W` (R54). -/
def indirectBit (hd : Byte) : Bool := hd.getLsbD 4

/-- Bits 11 to 8 of `W`; all ones is the extended escape (R54, R83). -/
def offsetNibble (hd : Byte) : BitVec 4 := hd.extractLsb' 0 4

/-- "number is immediate": slot (a) of MOVE is a literal count (R203). -/
def MoveMap.numimmOf (m : MoveMap) (op : Byte) : Bool := op.getLsbD m.numimm

/-- "destination is not GROM": slot (b) is an operand (R203). -/
def MoveMap.selBOf (m : MoveMap) (op : Byte) : Bool := op.getLsbD m.selB

/-- "the next operand's selector bit": a GROM slot (b) is indexed (R203). -/
def MoveMap.idxBOf (m : MoveMap) (op : Byte) : Bool := op.getLsbD m.idxB

/-- "destination is a VDP register": slot (c) is an operand (R203). -/
def MoveMap.selCOf (m : MoveMap) (op : Byte) : Bool := op.getLsbD m.selC

/-- A GROM slot (c) is indexed (R203, decision D11). -/
def MoveMap.idxCOf (m : MoveMap) (op : Byte) : Bool := op.getLsbD m.idxC

/-- "destination is a VDP register": slot (c) is rendered as a register number (R203, R206). -/
def MoveMap.vregOf (m : MoveMap) (op : Byte) : Bool := op.getLsbD m.vreg

/-- The width marker of the line, printed when the width flag is set (R232). -/
def widthMarker (cfg : Config) (wflag : Bool) : Text := if wflag then [cfg.widthMark] else []

/-- The opcode byte of a MOVE with this mode field: `001MMMMM` (R201). -/
def moveOpcode (mode : BitVec 5) : Byte := 0b001#3 ++ mode

/-- The opcode byte of a format-1 instruction whose group starts at `base`: `ooooooIW` (R53). -/
def twoOpcode (base : Byte) (imm w : Bool) : Byte :=
  base ||| (0#6 ++ BitVec.ofBool imm ++ BitVec.ofBool w)

/-- The opcode byte of a format-5 instruction whose pair starts at `base`: `oooooooW` (R53). -/
def oneOpcode (base : Byte) (w : Bool) : Byte := base ||| (0#7 ++ BitVec.ofBool w)

/-- The opcode byte of a format-4 instruction whose group starts at `base`: `oooDDDDD`, displacement bits 12 to 8 (R53). -/
def branchOpcode (base : Byte) (disp : BitVec 13) : Byte := base ||| (0#3 ++ disp.extractLsb' 8 5)

end Sys2Proof
end

