-- ==== Sys2Proof/Machine/State.lean ====
section
/-! DEFINITION. The block's data: operands and the result record (10_state.md R20, R21), the outcomes (00_scope.md R7), the
DecodeContext (R15), and the state between steps, with its reset value (R24, 70_reset_and_hazards.md R281). -/

namespace Sys2Proof.Machine

/-- The memory space a `Mem` operand names (R21, R23). -/
inductive Space where
  | cpu
  | vdp
  deriving DecidableEq, Repr

/-- A decoded operand (R21). An `index` is a scratchpad address. -/
inductive Operand where
  | mem (space : Space) (indirect : Bool) (addr : Word) (ext : Bool) (index : Option Word)
  | grom (addr : Word) (index : Option Word)
  | imm8 (v : Byte)
  | imm16 (v : Word)
  | vreg (n : Nat)
  | target (addr : Word)
  deriving DecidableEq, Repr

/-- The result record (R20). `format` carries `lit`. -/
structure Result where
  index : Option Nat
  opcode : Byte
  mnemonic : Text
  format : Format
  wflag : Bool
  ops : List Operand
  optext : Text
  line : Text
  length : Nat
  deriving DecidableEq, Repr

/-- The outcomes of a transaction (R7): exactly these three. -/
inductive TxOutcome where
  | ok (r : Result)
  | unknown (r : Result)
  | truncated (k : Nat)
  deriving DecidableEq, Repr

/-- The code of an outcome (R250). -/
def TxOutcome.code : TxOutcome → Nat
  | .ok _ => 0
  | .unknown _ => 1
  | .truncated _ => 2

/-- The DecodeContext: the working registers of one transaction (R15). -/
structure Context where
  addr : Word
  page : Word
  cur : Nat
  wflag : Bool
  text : Text
  ops : List Operand
  deriving DecidableEq, Repr

/-- The inputs of one transaction: the address and the window of bytes that starts there (R30, R31). -/
structure Request where
  address : Word
  bytes : List Byte
  deriving DecidableEq, Repr

/-- The state between steps. `ctx` is the spec's; `request` and `outcome` are the model's own, the block's input and
output (log 1). The decoder ROM and the parameters are the configuration, not state (R12). -/
structure State where
  /-- The transaction the host has handed over, not yet run. -/
  request : Option Request
  /-- The context of the transaction in progress; none between transactions (R24). -/
  ctx : Option Context
  /-- The outcome last returned to the host. -/
  outcome : Option TxOutcome
  deriving DecidableEq, Repr

/-- Machine-level faults. No outcome of a transaction is one: `UNKNOWN` and `TRUNCATED` are next states (log 3). -/
inductive Fault where
  /-- Raised by a meaning applied to a state with no transaction in progress, where R15 gives it no context to work in.
  Safe: `step` creates the context first and never raises it (log 18). -/
  | noTransaction
  deriving DecidableEq, Repr

/-- Refusals. -/
inductive Refusal where
  /-- Raised by an arm of `exec` whose instruction has no meaning yet; no arm does. Safe. -/
  | notModelled (mnemonic : String)
  deriving DecidableEq, Repr

/-- After construction (R24, R280, R281): no context exists, no output is pending, and nothing has been handed over. -/
def State.reset : State := { request := none, ctx := none, outcome := none }

end Sys2Proof.Machine
end

