-- ==== Sys2Proof/Syntax.lean ====
section
/-! DEFINITION. The abstract syntax: operand forms as they are encoded (30_encoding.md R54, R63, R64) and one
constructor of `Instr` per row of spec/opcode_table.json. -/

namespace Sys2Proof

/-- A source/destination operand as encoded (R54). `v` is the VDP bit (mask 0x2000 of `W`), `i` the indirect
bit (0x1000); the index bit (0x4000) is set exactly when an index byte is present. -/
inductive SrcDst where
  /-- Short direct form `0AAAAAAA` (R81). -/
  | short (a : BitVec 7)
  /-- Two-byte form `1XVIRRRR RRRRRRRR` (R82); `RRRR = 1111` is the extended escape, so `off < 0x0F00`. -/
  | near (v i : Bool) (off : BitVec 12) (index : Option Byte)
  /-- Extended form `1XVI1111 HHHHHHHH LLLLLLLL` (R83). -/
  | far (v i : Bool) (addr : Word) (index : Option Byte)
  deriving DecidableEq, Repr

/-- A GROM-form operand as encoded: address, and the index byte if the slot's index bit is set (R63). -/
structure GromRef where
  addr : Word
  index : Option Byte
  deriving DecidableEq, Repr

/-- The source of a format-1 instruction (R110): a second operand, or a literal sized by `W`. -/
inductive Source where
  | operand (o : SrcDst)
  | lit8 (v : Byte)
  | lit16 (v : Word)
  deriving DecidableEq, Repr

/-- Slot (a) of MOVE (R202): a literal count, or an operand. -/
inductive Count where
  | lit (v : Word)
  | operand (o : SrcDst)
  deriving DecidableEq, Repr

/-- Slots (b) and (c) of MOVE (R204, R205): an operand, or a GROM address. -/
inductive Slot where
  | operand (o : SrcDst)
  | grom (g : GromRef)
  deriving DecidableEq, Repr

/-- The instructions: one constructor per row of spec/opcode_table.json, in the table's order (R58).
`w` is the word-size bit, `mode` MOVE's mode field, `x` the opcode bits a reserved range leaves free. -/
inductive Instr where
  | rtn
  | rtnc
  | rand (v : Byte)
  | scan
  | back (v : Byte)
  | b (v : Word)
  | call (v : Word)
  | all (v : Byte)
  | fmt
  | h
  | gt
  | exit
  | carry
  | ovf
  | parse (v : Byte)
  | xml (v : Byte)
  | cont
  | exec
  | rtnb
  | rtgr
  /-- `XGPL`, opcode bytes 0x14 to 0x17: part 1 of descriptor 20 (R101). -/
  | xgpl14 (x : BitVec 2)
  /-- `XGPL`, opcode bytes 0x18 to 0x1F: part 2 of descriptor 20 (R101). -/
  | xgpl18 (x : BitVec 3)
  | move (mode : BitVec 5) (a : Count) (b c : Slot)
  | br (disp : BitVec 13)
  | bs (disp : BitVec 13)
  | abs (w : Bool) (o : SrcDst)
  | neg (w : Bool) (o : SrcDst)
  | inv (w : Bool) (o : SrcDst)
  | clr (w : Bool) (o : SrcDst)
  | fetch (w : Bool) (o : SrcDst)
  | case (w : Bool) (o : SrcDst)
  | push (w : Bool) (o : SrcDst)
  | cz (w : Bool) (o : SrcDst)
  | inc (w : Bool) (o : SrcDst)
  | dec (w : Bool) (o : SrcDst)
  | inct (w : Bool) (o : SrcDst)
  | dect (w : Bool) (o : SrcDst)
  /-- `XGPL`, opcode bytes 0x98 to 0x9F (R102). -/
  | xgpl98 (x : BitVec 3)
  | add (w : Bool) (dst : SrcDst) (src : Source)
  | sub (w : Bool) (dst : SrcDst) (src : Source)
  | mul (w : Bool) (dst : SrcDst) (src : Source)
  | div (w : Bool) (dst : SrcDst) (src : Source)
  | and (w : Bool) (dst : SrcDst) (src : Source)
  | or (w : Bool) (dst : SrcDst) (src : Source)
  | xor (w : Bool) (dst : SrcDst) (src : Source)
  | st (w : Bool) (dst : SrcDst) (src : Source)
  | ex (w : Bool) (dst : SrcDst) (src : Source)
  | ch (w : Bool) (dst : SrcDst) (src : Source)
  | che (w : Bool) (dst : SrcDst) (src : Source)
  | cgt (w : Bool) (dst : SrcDst) (src : Source)
  | cge (w : Bool) (dst : SrcDst) (src : Source)
  | ceq (w : Bool) (dst : SrcDst) (src : Source)
  | clog (w : Bool) (dst : SrcDst) (src : Source)
  | sra (w : Bool) (dst : SrcDst) (src : Source)
  | sll (w : Bool) (dst : SrcDst) (src : Source)
  | srl (w : Bool) (dst : SrcDst) (src : Source)
  | src (w : Bool) (dst : SrcDst) (src : Source)
  | coinc (w : Bool) (dst : SrcDst) (src : Source)
  /-- `XGPL`, opcode bytes 0xF0 to 0xF3 (R103). -/
  | xgplF0 (x : BitVec 2)
  /-- The row `I_O` of the table: the block prints `I/O` (R131). -/
  | io (w : Bool) (dst : SrcDst) (src : Source)
  | swgr (w : Bool) (dst : SrcDst) (src : Source)
  /-- `XGPL`, opcode bytes 0xFC to 0xFF (R104). -/
  | xgplFC (x : BitVec 2)
  deriving DecidableEq, Repr

end Sys2Proof
end

