-- ==== Sys2Proof/Machine/Operands.lean ====
section
/-! DEFINITION. What each encoded operand denotes (40_operand_extractors.md R80 to R90), its size in bytes (30_encoding.md
R52), and each operand's text (10_state.md R21, R61). -/

namespace Sys2Proof

/-- The address of an index cell (R86): the scratchpad base plus the index byte. -/
def indexCell (x : Byte) : Word := scratchBase + x.setWidth 16

/-- The space the VDP bit selects (R84). -/
def spaceOf (v : Bool) : Machine.Space := if v then .vdp else .cpu

/-- The address an offset denotes (R84, R90): the base is added modulo 2^16 but for VDP direct. -/
def effectiveAddr (v i : Bool) (r : Word) : Word := if v && !i then r else r + scratchBase

/-- The operand a source/destination encoding denotes (R80). -/
def SrcDst.operand : SrcDst → Machine.Operand
  | .short a => .mem .cpu false (scratchBase + a.setWidth 16) false none
  | .near v i off ix => .mem (spaceOf v) i (effectiveAddr v i (off.setWidth 16)) false (ix.map indexCell)
  | .far v i addr ix => .mem (spaceOf v) i (effectiveAddr v i addr) true (ix.map indexCell)

/-- One byte if an index byte is present (R52 `idx`). -/
def indexSize (ix : Option Byte) : Nat := if ix.isSome then 1 else 0

/-- `S` of R52. -/
def SrcDst.size : SrcDst → Nat
  | .short _ => 1
  | .near _ _ _ ix => 2 + indexSize ix
  | .far _ _ _ ix => 3 + indexSize ix

/-- The operand a GROM form denotes: no base, no mask (R88). -/
def GromRef.operand (g : GromRef) : Machine.Operand := .grom g.addr (g.index.map indexCell)

/-- `G` of R52. -/
def GromRef.size (g : GromRef) : Nat := 2 + indexSize g.index

/-- The source operand of format 1 (R110). -/
def Source.operandOf : Source → Machine.Operand
  | .operand o => o.operand
  | .lit8 v => .imm8 v
  | .lit16 v => .imm16 v

/-- Bytes of the source of format 1 (R52). -/
def Source.size : Source → Nat
  | .operand o => o.size
  | .lit8 _ => 1
  | .lit16 _ => 2

/-- The operand of slot (a) (R202). -/
def Count.operandOf : Count → Machine.Operand
  | .lit v => .imm16 v
  | .operand o => o.operand

/-- Bytes of slot (a) (R52 `A`). -/
def Count.size : Count → Nat
  | .lit _ => 2
  | .operand o => o.size

/-- The operand of slot (b), and of slot (c) before the register rendering (R204, R205). -/
def Slot.operandOf : Slot → Machine.Operand
  | .operand o => o.operand
  | .grom g => g.operand

/-- Bytes of slot (b) or (c) (R52 `B`, `C`). -/
def Slot.size : Slot → Nat
  | .operand o => o.size
  | .grom g => g.size

/-- The VDP register rendering (R206): the 16-bit address field cut to its low numeric field. A slot is decoded as a
`Mem` or a `Grom` operand; no other kind has an address field to trim. -/
def Machine.Operand.trim (mask : Word) : Machine.Operand → Machine.Operand
  | .mem _ _ a _ _ => .vreg (a &&& mask).toNat
  | .grom a _ => .vreg (a &&& mask).toNat
  | o => o

/-- The index suffix `(@>HHHH)` (R86). -/
def indexText : Option Word → Text
  | none => []
  | some a => "(@>".toList ++ hex4 a ++ ")".toList

/-- The space letter (R84). -/
def spaceText : Machine.Space → Text
  | .cpu => []
  | .vdp => ['V']

/-- The direct or indirect mark (R85). -/
def indirectText (i : Bool) : Text := if i then ['*'] else ['@']

/-- The text form of an operand (R21, R61). -/
def Machine.Operand.text : Machine.Operand → Text
  | .mem sp i a _ ix => spaceText sp ++ indirectText i ++ ['>'] ++ hex4 a ++ indexText ix
  | .grom a ix => "G@>".toList ++ hex4 a ++ indexText ix
  | .imm8 v => '>' :: hex2 v
  | .imm16 v => '>' :: hex4 v
  | .vreg n => '#' :: dec1 n
  | .target a => '>' :: hex4 a

/-- Operand texts separated by single commas, no space (R61). -/
def joinComma : List Text → Text
  | [] => []
  | [t] => t
  | t :: ts => t ++ ',' :: joinComma ts

end Sys2Proof
end

