-- ==== Sys2Proof/Machine/Ops.lean ====
section
/-! DEFINITION. The shared operations of a transaction: its start and its end, the composed line, the result records
(49_dispatcher.md R228 to R234; 60_exceptions.md R250 to R255). -/

namespace Sys2Proof.Machine

/-- The context at the start of a transaction (R15, R24, R228). -/
def Context.start (address : Word) : Context :=
  { addr := address, page := address &&& pageMask, cur := 0, wflag := false, text := [], ops := [] }

/-- The host hands over a transaction (R30, R31). -/
def State.present (s : State) (rq : Request) : State := { s with request := some rq }

/-- The block takes a transaction up: the context is created, and nothing of an earlier one is left (R15, R286). -/
def State.begin (s : State) (rq : Request) : State :=
  { s with request := none, ctx := some (Context.start rq.address), outcome := none }

/-- The end of a transaction, whatever its outcome: the context is discarded and the outcome returned (R9, R15). This is
also all that entering an exceptional outcome does, and there is nothing to return from: the block is ready for the
next transaction at once (R254, R255; log 3). -/
def State.finish (s : State) (o : TxOutcome) : State := { s with ctx := none, outcome := some o }

/-- `Compose` (R232). -/
def compose (cfg : Config) (address : Word) (wflag : Bool) (mnemonic optext : Text) : Text :=
  hex4 address ++ cfg.addrSep ++ padr (widthMarker cfg wflag ++ mnemonic) cfg.mnemWidth ++ ' ' :: optext

/-- The record of an `OK` outcome (R228), from the context before and after the format decoder: the length is the
distance between the original and the final cursor (R230). -/
def okResult (cfg : Config) (index : Nat) (d : Descriptor) (opcode : Byte) (c c' : Context) : Result :=
  { index := some index, opcode := opcode, mnemonic := d.mnemonic, format := d.format, wflag := c'.wflag,
    ops := c'.ops, optext := c'.text, line := compose cfg c'.addr c'.wflag d.mnemonic c'.text,
    length := c'.cur - c.cur }

/-- The mnemonic in the record of an `UNKNOWN` outcome: the matched entry's, as the pseudocode of R234 and vector V8.5 have
it, where the table of R20 says `empty on UNKNOWN` (log 16); empty where no entry matched. -/
def unknownMnemonic (entry : Option (Nat × Descriptor)) : Text :=
  match entry with
  | none => []
  | some (_, d) => d.mnemonic

/-- The record of an `UNKNOWN` outcome (R234), for the entry the byte matched, if any. -/
def unknownResult (cfg : Config) (entry : Option (Nat × Descriptor)) (opcode : Byte) : Result :=
  { index := entry.map Prod.fst, opcode := opcode,
    mnemonic := unknownMnemonic entry, format := .unknown, wflag := false, ops := [], optext := [], line := cfg.diag opcode, length := 1 }

/-- What a format decoder does to the context: the cursor past the instruction, the operands and their text, and the
width flag, which only formats 1 and 5 write (R17). -/
def Context.decoded (c : Context) (size : Nat) (wflag : Option Bool) (ops : List Operand) : Context :=
  { c with cur := c.cur + size, wflag := wflag.getD c.wflag, ops := ops, text := joinComma (ops.map Operand.text) }

/-- A decoded instruction of ROM entry `index` completes the transaction in progress (R228): the context is worked on,
the record made from it, and the context discarded. -/
def complete (index : Nat) (opcode : Byte) (size : Nat) (wflag : Option Bool) (ops : Context → List Operand)
    (s : State) : Host.Outcome State Fault Refusal :=
  match s.ctx with
  | none => .fault .noTransaction
  | some c =>
    .next (s.finish (.ok (okResult Config.default index (romEntry index) opcode c
      (c.decoded size wflag (ops c)))))

end Sys2Proof.Machine
end

