-- ==== Sys2Proof/Machine/Branch.lean ====
section
/-! DEFINITION. Format 4: the page-relative branches (45_format4_branch.md). The block reports the target and transfers no control (R173). -/

namespace Sys2Proof.Machine

/-- The target of a branch (R170): the page of the instruction's own first byte plus the 13-bit displacement. -/
def branchTarget (page : Word) (disp : BitVec 13) : Word := disp.setWidth 16 + page

/-- The format-4 decoder (R170): two bytes, one target, no flag. -/
def branchOp (index : Nat) (disp : BitVec 13) (s : State) : Host.Outcome State Fault Refusal :=
  complete index (branchOpcode (romEntry index).lo disp) 2 none (fun c => [.target (branchTarget c.page disp)]) s

/-- `BR` (R171). -/
def execBr (disp : BitVec 13) (s : State) : Host.Outcome State Fault Refusal := branchOp 22 disp s

/-- `BS` (R172). -/
def execBs (disp : BitVec 13) (s : State) : Host.Outcome State Fault Refusal := branchOp 23 disp s

end Sys2Proof.Machine
end

