-- ==== Sys2Proof/Machine/Literal.lean ====
section
/-! DEFINITION. Format 2: opcode plus literal (43_format2_literal.md). -/

namespace Sys2Proof.Machine

/-- The format-2 decoder, byte layout (R140): no flag, although other formats would size by one. -/
def byteLiteralOp (index : Nat) (v : Byte) (s : State) : Host.Outcome State Fault Refusal :=
  complete index (romEntry index).lo 2 none (fun _ => [.imm8 v]) s

/-- The format-2 decoder, word layout (R141): the width flag is not written although the literal is a word. -/
def wordLiteralOp (index : Nat) (v : Word) (s : State) : Host.Outcome State Fault Refusal :=
  complete index (romEntry index).lo 3 none (fun _ => [.imm16 v]) s

/-- `RAND` (R142). -/
def execRand (v : Byte) (s : State) : Host.Outcome State Fault Refusal :=
  byteLiteralOp 2 v s

/-- `BACK` (R143). -/
def execBack (v : Byte) (s : State) : Host.Outcome State Fault Refusal :=
  byteLiteralOp 4 v s

/-- `B` (R144). -/
def execB (v : Word) (s : State) : Host.Outcome State Fault Refusal :=
  wordLiteralOp 5 v s

/-- `CALL` (R145). -/
def execCall (v : Word) (s : State) : Host.Outcome State Fault Refusal :=
  wordLiteralOp 6 v s

/-- `ALL` (R146). -/
def execAll (v : Byte) (s : State) : Host.Outcome State Fault Refusal :=
  byteLiteralOp 7 v s

/-- `PARSE` (R147). -/
def execParse (v : Byte) (s : State) : Host.Outcome State Fault Refusal :=
  byteLiteralOp 14 v s

/-- `XML` (R148). -/
def execXml (v : Byte) (s : State) : Host.Outcome State Fault Refusal :=
  byteLiteralOp 15 v s

end Sys2Proof.Machine
end

