-- ==== Sys2Proof/Machine/Move.lean ====
section
/-! DEFINITION. Format 6: MOVE (47_format6_move.md), under the configuration's `MOVE_MAP` and `VREG_MASK`. -/

namespace Sys2Proof.Machine

/-- The operand of slot (c) (R205, R206): rendered as a VDP register number when the mode's `vreg` flag is set. -/
def slotCOperand (cfg : Config) (opcode : Byte) (c : Slot) : Operand :=
  if cfg.moveMap.vregOf opcode then c.operandOf.trim cfg.vregMask else c.operandOf

/-- `MOVE` (R200, R201): three slots, in stream order and in text order alike; the width flag is not written (R17). -/
def execMove (mode : BitVec 5) (a : Count) (b c : Slot) (s : State) : Host.Outcome State Fault Refusal :=
  complete 21 (moveOpcode mode) (1 + a.size + b.size + c.size) none
    (fun _ => [a.operandOf, b.operandOf, slotCOperand Config.default (moveOpcode mode) c]) s

end Sys2Proof.Machine
end

