-- ==== Sys2Proof/Machine/NoOperand.lean ====
section
/-! DEFINITION. Format 3: the no-operand instructions (44_format3_no_operand.md). -/

namespace Sys2Proof.Machine

/-- The format-3 decoder (R150): one byte, no operand, no flag; the opcode byte is the descriptor's only one. -/
def plainOp (index : Nat) (s : State) : Host.Outcome State Fault Refusal :=
  complete index (romEntry index).lo 1 none (fun _ => []) s

/-- `RTN` (R151). -/
def execRtn (s : State) : Host.Outcome State Fault Refusal := plainOp 0 s

/-- `RTNC` (R152). -/
def execRtnc (s : State) : Host.Outcome State Fault Refusal := plainOp 1 s

/-- `SCAN` (R153). -/
def execScan (s : State) : Host.Outcome State Fault Refusal := plainOp 3 s

/-- `H` (R154). -/
def execH (s : State) : Host.Outcome State Fault Refusal := plainOp 9 s

/-- `GT` (R155). -/
def execGt (s : State) : Host.Outcome State Fault Refusal := plainOp 10 s

/-- `EXIT` (R156). -/
def execExit (s : State) : Host.Outcome State Fault Refusal := plainOp 11 s

/-- `CARRY` (R157). -/
def execCarry (s : State) : Host.Outcome State Fault Refusal := plainOp 12 s

/-- `OVF` (R158). -/
def execOvf (s : State) : Host.Outcome State Fault Refusal := plainOp 13 s

/-- `CONT` (R159). -/
def execCont (s : State) : Host.Outcome State Fault Refusal := plainOp 16 s

/-- `EXEC` (R160). -/
def execExec (s : State) : Host.Outcome State Fault Refusal := plainOp 17 s

/-- `RTNB` (R161). -/
def execRtnb (s : State) : Host.Outcome State Fault Refusal := plainOp 18 s

/-- `RTGR` (R162). -/
def execRtgr (s : State) : Host.Outcome State Fault Refusal := plainOp 19 s

end Sys2Proof.Machine
end

