-- ==== Sys2Proof/Machine/OneOperand.lean ====
section
/-! DEFINITION. Format 5: the one-operand instructions (46_format5_one_operand.md). -/

namespace Sys2Proof.Machine

/-- The format-5 decoder (R180): the width flag from the opcode byte, one operand whose decode the flag does not change. -/
def oneOperandOp (index : Nat) (w : Bool) (o : SrcDst) (s : State) : Host.Outcome State Fault Refusal :=
  complete index (oneOpcode (romEntry index).lo w) (1 + o.size) (some w) (fun _ => [o.operand]) s

/-- `ABS` (R181). -/
def execAbs (w : Bool) (o : SrcDst) (s : State) : Host.Outcome State Fault Refusal := oneOperandOp 24 w o s

/-- `NEG` (R182). -/
def execNeg (w : Bool) (o : SrcDst) (s : State) : Host.Outcome State Fault Refusal := oneOperandOp 25 w o s

/-- `INV` (R183). -/
def execInv (w : Bool) (o : SrcDst) (s : State) : Host.Outcome State Fault Refusal := oneOperandOp 26 w o s

/-- `CLR` (R184). -/
def execClr (w : Bool) (o : SrcDst) (s : State) : Host.Outcome State Fault Refusal := oneOperandOp 27 w o s

/-- `FETCH` (R185). -/
def execFetch (w : Bool) (o : SrcDst) (s : State) : Host.Outcome State Fault Refusal := oneOperandOp 28 w o s

/-- `CASE` (R186). -/
def execCase (w : Bool) (o : SrcDst) (s : State) : Host.Outcome State Fault Refusal := oneOperandOp 29 w o s

/-- `PUSH` (R187). -/
def execPush (w : Bool) (o : SrcDst) (s : State) : Host.Outcome State Fault Refusal := oneOperandOp 30 w o s

/-- `CZ` (R188). -/
def execCz (w : Bool) (o : SrcDst) (s : State) : Host.Outcome State Fault Refusal := oneOperandOp 31 w o s

/-- `INC` (R189). -/
def execInc (w : Bool) (o : SrcDst) (s : State) : Host.Outcome State Fault Refusal := oneOperandOp 32 w o s

/-- `DEC` (R190). -/
def execDec (w : Bool) (o : SrcDst) (s : State) : Host.Outcome State Fault Refusal := oneOperandOp 33 w o s

/-- `INCT` (R191). -/
def execInct (w : Bool) (o : SrcDst) (s : State) : Host.Outcome State Fault Refusal := oneOperandOp 34 w o s

/-- `DECT` (R192). -/
def execDect (w : Bool) (o : SrcDst) (s : State) : Host.Outcome State Fault Refusal := oneOperandOp 35 w o s

end Sys2Proof.Machine
end

