-- ==== Sys2Proof/Machine/Reserved.lean ====
section
/-! DEFINITION. Format 0: the reserved opcodes (41_format0_reserved.md). The block gives each a fixed decode, not a no-op meaning (R60). -/

namespace Sys2Proof.Machine

/-- The format-0 decoder (R100): one byte, no operand, no flag. -/
def reservedOp (index : Nat) (opcode : Byte) (s : State) : Host.Outcome State Fault Refusal :=
  complete index opcode 1 none (fun _ => []) s

/-- `XGPL`, opcode bytes 0x14 to 0x17 (R101). -/
def execXgpl14 (x : BitVec 2) (s : State) : Host.Outcome State Fault Refusal :=
  reservedOp 20 (0b000101#6 ++ x) s

/-- `XGPL`, opcode bytes 0x18 to 0x1F (R101). -/
def execXgpl18 (x : BitVec 3) (s : State) : Host.Outcome State Fault Refusal :=
  reservedOp 20 (0b00011#5 ++ x) s

/-- `XGPL`, opcode bytes 0x98 to 0x9F (R102). -/
def execXgpl98 (x : BitVec 3) (s : State) : Host.Outcome State Fault Refusal :=
  reservedOp 36 (0b10011#5 ++ x) s

/-- `XGPL`, opcode bytes 0xF0 to 0xF3 (R103). -/
def execXgplF0 (x : BitVec 2) (s : State) : Host.Outcome State Fault Refusal :=
  reservedOp 57 (0b111100#6 ++ x) s

/-- `XGPL`, opcode bytes 0xFC to 0xFF (R104). -/
def execXgplFC (x : BitVec 2) (s : State) : Host.Outcome State Fault Refusal :=
  reservedOp 60 (0b111111#6 ++ x) s

end Sys2Proof.Machine
end

