-- ==== Sys2Proof/Machine/Screen.lean ====
section
/-! DEFINITION. Format 7: the screen-format escape (48_format7_fmt.md). The sub-language that follows is out of scope (R3, U5). -/

namespace Sys2Proof.Machine

/-- The format-7 decoder (R220): one byte, no operand, no flag, and no memory of having seen the escape. -/
def screenOp (index : Nat) (s : State) : Host.Outcome State Fault Refusal :=
  complete index (romEntry index).lo 1 none (fun _ => []) s

/-- `FMT` (R221). -/
def execFmt (s : State) : Host.Outcome State Fault Refusal := screenOp 8 s

end Sys2Proof.Machine
end

