-- ==== Sys2Proof/WellFormed.lean ====
section
/-! DEFINITION. Which terms of the abstract syntax some bytes encode (30_encoding.md R53, R54, R63; MOVE under the
default `MOVE_MAP`, R203). A reserved or meaningless combination is no ill-formed term: the block accepts every one (R59). -/

namespace Sys2Proof

/-- A two-byte operand's offset is below the extended escape (R54). -/
def SrcDst.wf : SrcDst → Bool
  | .short _ => true
  | .near _ _ off _ => off.setWidth 16 < extThreshold
  | .far _ _ _ _ => true

/-- The literal's size follows `W` (R110). -/
def Source.wf (w : Bool) : Source → Bool
  | .operand o => o.wf
  | .lit8 _ => !w
  | .lit16 _ => w

/-- Slot (a) is a literal exactly when the mode's `numimm` flag is set (R202). -/
def Count.wf (numimm : Bool) : Count → Bool
  | .lit _ => numimm
  | .operand o => !numimm && o.wf

/-- A slot is an operand exactly when its selector is set; a GROM slot is indexed exactly when its index bit is (R88). -/
def Slot.wf (sel idx : Bool) : Slot → Bool
  | .operand o => sel && o.wf
  | .grom g => !sel && g.index.isSome == idx

/-- The slots of a MOVE agree with its mode field under the default `MOVE_MAP` (R203, R208). -/
def moveWf (mode : BitVec 5) (a : Count) (b c : Slot) : Bool :=
  let op := moveOpcode mode
  a.wf (defaultMoveMap.numimmOf op) && b.wf (defaultMoveMap.selBOf op) (defaultMoveMap.idxBOf op) &&
    c.wf (defaultMoveMap.selCOf op) (defaultMoveMap.idxCOf op)

/-- An instruction that some bytes encode. -/
def Instr.wf : Instr → Bool
  | .rtn | .rtnc | .scan | .h | .gt | .exit | .carry | .ovf | .cont | .exec | .rtnb | .rtgr | .fmt => true
  | .rand _ | .back _ | .all _ | .parse _ | .xml _ | .b _ | .call _ => true
  | .xgpl14 _ | .xgpl18 _ | .xgpl98 _ | .xgplF0 _ | .xgplFC _ => true
  | .br _ | .bs _ => true
  | .move mode slotA slotB slotC => moveWf mode slotA slotB slotC
  | .abs _ o | .neg _ o | .inv _ o | .clr _ o | .fetch _ o | .case _ o => o.wf
  | .push _ o | .cz _ o | .inc _ o | .dec _ o | .inct _ o | .dect _ o => o.wf
  | .add w d s | .sub w d s | .mul w d s | .div w d s | .and w d s | .or w d s => d.wf && s.wf w
  | .xor w d s | .st w d s | .ex w d s | .ch w d s | .che w d s | .cgt w d s => d.wf && s.wf w
  | .cge w d s | .ceq w d s | .clog w d s | .sra w d s | .sll w d s | .srl w d s => d.wf && s.wf w
  | .src w d s | .coinc w d s | .io w d s | .swgr w d s => d.wf && s.wf w

end Sys2Proof
end

