-- ==== Sys2Proof/Decode.lean ====
section
/-! DEFINITION. From the bytes of a window to an instruction, total on any bytes (49_dispatcher.md R225, R228; the
layouts of 30_encoding.md R53, R54, R63), and the encoder written from the same tables. -/

namespace Sys2Proof

/-- What is left of the window, and the offset of its first byte (the cursor of R6). -/
structure Stream where
  rest : List Byte
  off : Nat
  deriving DecidableEq, Repr

/-- `Next8` (R6): the next byte, or the offset of the byte that is not in the window. -/
def Stream.next8 (t : Stream) : Except Nat (Byte × Stream) :=
  match t.rest with
  | [] => .error t.off
  | v :: r => .ok (v, ⟨r, t.off + 1⟩)

/-- `Next16` (R6, R33): two bytes, first byte high. -/
def Stream.next16 (t : Stream) : Except Nat (Word × Stream) := do
  let (hi, t) ← t.next8
  let (lo, t) ← t.next8
  return (hi ++ lo, t)

/-- The index byte, read only when the index bit is set (R54, R63). -/
def Stream.indexByte (indexed : Bool) (t : Stream) : Except Nat (Option Byte × Stream) :=
  if indexed then do
    let (x, t) ← t.next8
    return (some x, t)
  else .ok (none, t)

/-- The layouts of a source/destination operand (R54); the first byte decides. -/
def Stream.srcDst (t : Stream) : Except Nat (SrcDst × Stream) := do
  let (hd, t) ← t.next8
  if multiByte hd then
    let (l, t) ← t.next8
    if offsetNibble hd = 0xF#4 then
      let (e, t) ← t.next8
      let (ix, t) ← t.indexByte (indexedBit hd)
      return (.far (vdpBit hd) (indirectBit hd) (l ++ e) ix, t)
    else
      let (ix, t) ← t.indexByte (indexedBit hd)
      return (.near (vdpBit hd) (indirectBit hd) (offsetNibble hd ++ l) ix, t)
  else return (.short (hd.extractLsb' 0 7), t)

/-- The layout of a GROM-form operand (R63). -/
def Stream.gromRef (indexed : Bool) (t : Stream) : Except Nat (GromRef × Stream) := do
  let (g, t) ← t.next16
  let (ix, t) ← t.indexByte indexed
  return (⟨g, ix⟩, t)

/-- The source of a format-1 instruction (R110). -/
def Stream.source (imm w : Bool) (t : Stream) : Except Nat (Source × Stream) :=
  match imm, w with
  | false, _ => do let (o, t) ← t.srcDst; return (.operand o, t)
  | true, false => do let (v, t) ← t.next8; return (.lit8 v, t)
  | true, true => do let (v, t) ← t.next16; return (.lit16 v, t)

/-- Slot (a) of MOVE (R202). -/
def Stream.count (numimm : Bool) (t : Stream) : Except Nat (Count × Stream) :=
  if numimm then do let (v, t) ← t.next16; return (.lit v, t)
  else do let (o, t) ← t.srcDst; return (.operand o, t)

/-- Slots (b) and (c) of MOVE (R88, R204, R205). -/
def Stream.slot (sel idx : Bool) (t : Stream) : Except Nat (Slot × Stream) :=
  if sel then do let (o, t) ← t.srcDst; return (.operand o, t)
  else do let (g, t) ← t.gromRef idx; return (.grom g, t)

/-- A decode routine: from the opcode byte and the bytes that follow it to an instruction. -/
abbrev Routine := Byte → Stream → Except Nat (Instr × Stream)

/-- Formats 0, 3 and 7: the opcode byte alone (R100, R150, R220). -/
def readNone (mk : Byte → Instr) : Routine := fun op t => .ok (mk op, t)

/-- Format 2, byte literal (R140). -/
def readByteLit (mk : Byte → Instr) : Routine := fun _ t => do
  let (v, t) ← t.next8
  return (mk v, t)

/-- Format 2, word literal (R141). -/
def readWordLit (mk : Word → Instr) : Routine := fun _ t => do
  let (v, t) ← t.next16
  return (mk v, t)

/-- Format 4: displacement bits 12 to 8 in the opcode byte, 7 to 0 in the next (R170). -/
def readBranch (mk : BitVec 13 → Instr) : Routine := fun op t => do
  let (lo, t) ← t.next8
  return (mk (op.extractLsb' 0 5 ++ lo), t)

/-- Format 5: the width flag and one operand (R180). -/
def readOne (mk : Bool → SrcDst → Instr) : Routine := fun op t => do
  let (o, t) ← t.srcDst
  return (mk (wordFlag op) o, t)

/-- Format 1: destination first in the stream, then source (R110). -/
def readTwo (mk : Bool → SrcDst → Source → Instr) : Routine := fun op t => do
  let (dst, t) ← t.srcDst
  let (src, t) ← t.source (immediateFlag op) (wordFlag op)
  return (mk (wordFlag op) dst src, t)

/-- Format 6: slots (a), (b), (c) as the mode field selects them (R200). -/
def readMove : Routine := fun op t => do
  let (a, t) ← t.count (defaultMoveMap.numimmOf op)
  let (b, t) ← t.slot (defaultMoveMap.selBOf op) (defaultMoveMap.idxBOf op)
  let (c, t) ← t.slot (defaultMoveMap.selCOf op) (defaultMoveMap.idxCOf op)
  return (.move (op.extractLsb' 0 5) a b c, t)

/-- Routines of descriptors 0 to 19. -/
def routinesLow : List Routine :=
  [ readNone fun _ => .rtn, readNone fun _ => .rtnc, readByteLit .rand, readNone fun _ => .scan,
    readByteLit .back, readWordLit .b, readWordLit .call, readByteLit .all, readNone fun _ => .fmt,
    readNone fun _ => .h, readNone fun _ => .gt, readNone fun _ => .exit, readNone fun _ => .carry,
    readNone fun _ => .ovf, readByteLit .parse, readByteLit .xml, readNone fun _ => .cont,
    readNone fun _ => .exec, readNone fun _ => .rtnb, readNone fun _ => .rtgr ]

/-- Routines of descriptors 20 to 36; descriptor 20 is two rows of the opcode table, told apart by the byte (R101). -/
def routinesMiddle : List Routine :=
  [ readNone fun op => if op < 0x18 then .xgpl14 (op.extractLsb' 0 2) else .xgpl18 (op.extractLsb' 0 3),
    readMove, readBranch .br, readBranch .bs, readOne .abs, readOne .neg, readOne .inv, readOne .clr,
    readOne .fetch, readOne .case, readOne .push, readOne .cz, readOne .inc, readOne .dec, readOne .inct,
    readOne .dect, readNone fun op => .xgpl98 (op.extractLsb' 0 3) ]

/-- Routines of descriptors 37 to 60. -/
def routinesHigh : List Routine :=
  [ readTwo .add, readTwo .sub, readTwo .mul, readTwo .div, readTwo .and, readTwo .or, readTwo .xor, readTwo .st,
    readTwo .ex, readTwo .ch, readTwo .che, readTwo .cgt, readTwo .cge, readTwo .ceq, readTwo .clog, readTwo .sra,
    readTwo .sll, readTwo .srl, readTwo .src, readTwo .coinc, readNone fun op => .xgplF0 (op.extractLsb' 0 2),
    readTwo .io, readTwo .swgr, readNone fun op => .xgplFC (op.extractLsb' 0 2) ]

/-- The decode routine of each descriptor of the default ROM, in the ROM's order (R11, R228). -/
def routines : List Routine := routinesLow ++ routinesMiddle ++ routinesHigh

/-- What decoding a window gives: an instruction and its length, a byte with no decode routine (with the index of
the descriptor it matched, if any: R226), or the offset of the first byte that is not in the window (R252). -/
inductive Decoded where
  | instr (i : Instr) (length : Nat)
  | unknown (index : Option Nat) (opcode : Byte)
  | truncated (k : Nat)
  deriving DecidableEq, Repr

/-- The routine of entry `i`, run on the bytes after the opcode byte. -/
def runRoutine (i : Nat) (op : Byte) (rest : List Byte) : Decoded :=
  match routines[i]? with
  | none => .unknown (some i) op
  | some r =>
    match r op ⟨rest, 1⟩ with
    | .error k => .truncated k
    | .ok (ins, t) => .instr ins t.off

/-- Decoding under the default configuration, its checks in the order of R253: empty window, lookup, routine. -/
def decode (bytes : List Byte) : Decoded :=
  match bytes with
  | [] => .truncated 0
  | op :: rest =>
    match lookup defaultTable op with
    | none => .unknown none op
    | some (i, d) => if d.format = .unknown then .unknown (some i) op else runRoutine i op rest

/-! The encoder. -/

/-- A word's two bytes, first byte high (R33). -/
def encodeWord (v : Word) : List Byte := [v.extractLsb' 8 8, v.extractLsb' 0 8]

/-- First byte of a multi-byte operand: `1XVI` and a nibble (R54). -/
def operandHead (x v i : Bool) (nibble : BitVec 4) : Byte :=
  1#1 ++ BitVec.ofBool x ++ BitVec.ofBool v ++ BitVec.ofBool i ++ nibble

/-- The bytes of a source/destination operand (R54). -/
def SrcDst.encode : SrcDst → List Byte
  | .short a => [0#1 ++ a]
  | .near v i off ix => operandHead ix.isSome v i (off.extractLsb' 8 4) :: off.extractLsb' 0 8 :: ix.toList
  | .far v i addr ix => operandHead ix.isSome v i 0xF#4 :: (encodeWord addr ++ ix.toList)

/-- The bytes of a GROM-form operand (R63). -/
def GromRef.encode (g : GromRef) : List Byte := encodeWord g.addr ++ g.index.toList

/-- The bytes of a format-1 source (R110). -/
def Source.encode : Source → List Byte
  | .operand o => o.encode
  | .lit8 v => [v]
  | .lit16 v => encodeWord v

/-- The source is a literal: the `I` bit of the opcode byte (R110). -/
def Source.isLit : Source → Bool
  | .operand _ => false
  | .lit8 _ => true
  | .lit16 _ => true

/-- The bytes of slot (a) (R202). -/
def Count.encode : Count → List Byte
  | .lit v => encodeWord v
  | .operand o => o.encode

/-- The bytes of slot (b) or (c) (R204, R205). -/
def Slot.encode : Slot → List Byte
  | .operand o => o.encode
  | .grom g => g.encode

/-- A format-1 instruction of the group at `base` (R110). -/
def encodeTwo (base : Byte) (w : Bool) (dst : SrcDst) (src : Source) : List Byte :=
  twoOpcode base src.isLit w :: (dst.encode ++ src.encode)

/-- A format-5 instruction of the pair at `base` (R180). -/
def encodeOne (base : Byte) (w : Bool) (o : SrcDst) : List Byte := oneOpcode base w :: o.encode

/-- A format-4 instruction of the group at `base` (R170). -/
def encodeBranch (base : Byte) (disp : BitVec 13) : List Byte :=
  [branchOpcode base disp, disp.extractLsb' 0 8]

/-- The bytes of an instruction, from the encodings of spec/opcode_table.json and the layouts of R53. -/
def encode : Instr → List Byte
  | .rtn => [0x00]
  | .rtnc => [0x01]
  | .rand v => [0x02, v]
  | .scan => [0x03]
  | .back v => [0x04, v]
  | .b v => 0x05 :: encodeWord v
  | .call v => 0x06 :: encodeWord v
  | .all v => [0x07, v]
  | .fmt => [0x08]
  | .h => [0x09]
  | .gt => [0x0A]
  | .exit => [0x0B]
  | .carry => [0x0C]
  | .ovf => [0x0D]
  | .parse v => [0x0E, v]
  | .xml v => [0x0F, v]
  | .cont => [0x10]
  | .exec => [0x11]
  | .rtnb => [0x12]
  | .rtgr => [0x13]
  | .xgpl14 x => [0b000101#6 ++ x]
  | .xgpl18 x => [0b00011#5 ++ x]
  | .move mode a b c => moveOpcode mode :: (a.encode ++ b.encode ++ c.encode)
  | .br disp => encodeBranch 0x40 disp
  | .bs disp => encodeBranch 0x60 disp
  | .abs w o => encodeOne 0x80 w o
  | .neg w o => encodeOne 0x82 w o
  | .inv w o => encodeOne 0x84 w o
  | .clr w o => encodeOne 0x86 w o
  | .fetch w o => encodeOne 0x88 w o
  | .case w o => encodeOne 0x8A w o
  | .push w o => encodeOne 0x8C w o
  | .cz w o => encodeOne 0x8E w o
  | .inc w o => encodeOne 0x90 w o
  | .dec w o => encodeOne 0x92 w o
  | .inct w o => encodeOne 0x94 w o
  | .dect w o => encodeOne 0x96 w o
  | .xgpl98 x => [0b10011#5 ++ x]
  | .add w d s => encodeTwo 0xA0 w d s
  | .sub w d s => encodeTwo 0xA4 w d s
  | .mul w d s => encodeTwo 0xA8 w d s
  | .div w d s => encodeTwo 0xAC w d s
  | .and w d s => encodeTwo 0xB0 w d s
  | .or w d s => encodeTwo 0xB4 w d s
  | .xor w d s => encodeTwo 0xB8 w d s
  | .st w d s => encodeTwo 0xBC w d s
  | .ex w d s => encodeTwo 0xC0 w d s
  | .ch w d s => encodeTwo 0xC4 w d s
  | .che w d s => encodeTwo 0xC8 w d s
  | .cgt w d s => encodeTwo 0xCC w d s
  | .cge w d s => encodeTwo 0xD0 w d s
  | .ceq w d s => encodeTwo 0xD4 w d s
  | .clog w d s => encodeTwo 0xD8 w d s
  | .sra w d s => encodeTwo 0xDC w d s
  | .sll w d s => encodeTwo 0xE0 w d s
  | .srl w d s => encodeTwo 0xE4 w d s
  | .src w d s => encodeTwo 0xE8 w d s
  | .coinc w d s => encodeTwo 0xEC w d s
  | .xgplF0 x => [0b111100#6 ++ x]
  | .io w d s => encodeTwo 0xF4 w d s
  | .swgr w d s => encodeTwo 0xF8 w d s
  | .xgplFC x => [0b111111#6 ++ x]

/-! The interface to the opcode table's numbering of bits. -/

/-- The bytes of an instruction given as a number: its first byte is bits 7 to 0, the next 15 to 8, and so on for
`nbits` bits; every later byte, up to the longest instruction, is 0. -/
def bytesOfWord (nbits w : Nat) : List Byte :=
  (List.range maxLen).map fun k => if k < nbits / 8 then BitVec.ofNat 8 (w >>> (8 * k)) else 0

/-- The instruction the decoder reads from an instruction given as a number. -/
def decodeTableWord (nbits w : Nat) : Option Instr :=
  match decode (bytesOfWord nbits w) with
  | .instr i _ => some i
  | .unknown _ _ => none
  | .truncated _ => none

end Sys2Proof
end

