-- ==== Sys2Proof/Machine/TwoOperand.lean ====
section
/-! DEFINITION. Format 1: the two-operand instructions (42_format1_two_operand.md). -/

namespace Sys2Proof.Machine

/-- The format-1 decoder (R110): the width flag from the opcode byte; destination first in the stream, source first in
the operand list and the text. -/
def twoOperandOp (index : Nat) (w : Bool) (dst : SrcDst) (src : Source) (s : State) :
    Host.Outcome State Fault Refusal :=
  complete index (twoOpcode (romEntry index).lo src.isLit w) (1 + dst.size + src.size) (some w)
    (fun _ => [src.operandOf, dst.operand]) s

/-- `ADD` (R111). -/
def execAdd (w : Bool) (dst : SrcDst) (src : Source) (s : State) : Host.Outcome State Fault Refusal :=
  twoOperandOp 37 w dst src s

/-- `SUB` (R112). -/
def execSub (w : Bool) (dst : SrcDst) (src : Source) (s : State) : Host.Outcome State Fault Refusal :=
  twoOperandOp 38 w dst src s

/-- `MUL` (R113). -/
def execMul (w : Bool) (dst : SrcDst) (src : Source) (s : State) : Host.Outcome State Fault Refusal :=
  twoOperandOp 39 w dst src s

/-- `DIV` (R114). -/
def execDiv (w : Bool) (dst : SrcDst) (src : Source) (s : State) : Host.Outcome State Fault Refusal :=
  twoOperandOp 40 w dst src s

/-- `AND` (R115). -/
def execAnd (w : Bool) (dst : SrcDst) (src : Source) (s : State) : Host.Outcome State Fault Refusal :=
  twoOperandOp 41 w dst src s

/-- `OR` (R116). -/
def execOr (w : Bool) (dst : SrcDst) (src : Source) (s : State) : Host.Outcome State Fault Refusal :=
  twoOperandOp 42 w dst src s

/-- `XOR` (R117). -/
def execXor (w : Bool) (dst : SrcDst) (src : Source) (s : State) : Host.Outcome State Fault Refusal :=
  twoOperandOp 43 w dst src s

/-- `ST` (R118). -/
def execSt (w : Bool) (dst : SrcDst) (src : Source) (s : State) : Host.Outcome State Fault Refusal :=
  twoOperandOp 44 w dst src s

/-- `EX` (R119). -/
def execEx (w : Bool) (dst : SrcDst) (src : Source) (s : State) : Host.Outcome State Fault Refusal :=
  twoOperandOp 45 w dst src s

/-- `CH` (R120). -/
def execCh (w : Bool) (dst : SrcDst) (src : Source) (s : State) : Host.Outcome State Fault Refusal :=
  twoOperandOp 46 w dst src s

/-- `CHE` (R121). -/
def execChe (w : Bool) (dst : SrcDst) (src : Source) (s : State) : Host.Outcome State Fault Refusal :=
  twoOperandOp 47 w dst src s

/-- `CGT` (R122). -/
def execCgt (w : Bool) (dst : SrcDst) (src : Source) (s : State) : Host.Outcome State Fault Refusal :=
  twoOperandOp 48 w dst src s

/-- `CGE` (R123). -/
def execCge (w : Bool) (dst : SrcDst) (src : Source) (s : State) : Host.Outcome State Fault Refusal :=
  twoOperandOp 49 w dst src s

/-- `CEQ` (R124). -/
def execCeq (w : Bool) (dst : SrcDst) (src : Source) (s : State) : Host.Outcome State Fault Refusal :=
  twoOperandOp 50 w dst src s

/-- `CLOG` (R125). -/
def execClog (w : Bool) (dst : SrcDst) (src : Source) (s : State) : Host.Outcome State Fault Refusal :=
  twoOperandOp 51 w dst src s

/-- `SRA` (R126). -/
def execSra (w : Bool) (dst : SrcDst) (src : Source) (s : State) : Host.Outcome State Fault Refusal :=
  twoOperandOp 52 w dst src s

/-- `SLL` (R127). -/
def execSll (w : Bool) (dst : SrcDst) (src : Source) (s : State) : Host.Outcome State Fault Refusal :=
  twoOperandOp 53 w dst src s

/-- `SRL` (R128). -/
def execSrl (w : Bool) (dst : SrcDst) (src : Source) (s : State) : Host.Outcome State Fault Refusal :=
  twoOperandOp 54 w dst src s

/-- `SRC` (R129). -/
def execSrc (w : Bool) (dst : SrcDst) (src : Source) (s : State) : Host.Outcome State Fault Refusal :=
  twoOperandOp 55 w dst src s

/-- `COINC` (R130). -/
def execCoinc (w : Bool) (dst : SrcDst) (src : Source) (s : State) : Host.Outcome State Fault Refusal :=
  twoOperandOp 56 w dst src s

/-- `I/O` (R131). -/
def execIo (w : Bool) (dst : SrcDst) (src : Source) (s : State) : Host.Outcome State Fault Refusal :=
  twoOperandOp 58 w dst src s

/-- `SWGR` (R132). -/
def execSwgr (w : Bool) (dst : SrcDst) (src : Source) (s : State) : Host.Outcome State Fault Refusal :=
  twoOperandOp 59 w dst src s

end Sys2Proof.Machine
end

