-- ==== Sys2Proof/Machine/Dispatch.lean ====
section
/-! DEFINITION. The meaning of every instruction of the block: one arm per row of spec/opcode_table.json. -/

namespace Sys2Proof.Machine

def exec (i : Instr) (s : State) : Host.Outcome State Fault Refusal :=
  match i with
  | .rtn => Sys2Proof.Machine.execRtn s
  | .rtnc => Sys2Proof.Machine.execRtnc s
  | .rand v => Sys2Proof.Machine.execRand v s
  | .scan => Sys2Proof.Machine.execScan s
  | .back v => Sys2Proof.Machine.execBack v s
  | .b v => Sys2Proof.Machine.execB v s
  | .call v => Sys2Proof.Machine.execCall v s
  | .all v => Sys2Proof.Machine.execAll v s
  | .fmt => Sys2Proof.Machine.execFmt s
  | .h => Sys2Proof.Machine.execH s
  | .gt => Sys2Proof.Machine.execGt s
  | .exit => Sys2Proof.Machine.execExit s
  | .carry => Sys2Proof.Machine.execCarry s
  | .ovf => Sys2Proof.Machine.execOvf s
  | .parse v => Sys2Proof.Machine.execParse v s
  | .xml v => Sys2Proof.Machine.execXml v s
  | .cont => Sys2Proof.Machine.execCont s
  | .exec => Sys2Proof.Machine.execExec s
  | .rtnb => Sys2Proof.Machine.execRtnb s
  | .rtgr => Sys2Proof.Machine.execRtgr s
  | .xgpl14 x => Sys2Proof.Machine.execXgpl14 x s
  | .xgpl18 x => Sys2Proof.Machine.execXgpl18 x s
  | .move mode a b c => Sys2Proof.Machine.execMove mode a b c s
  | .br disp => Sys2Proof.Machine.execBr disp s
  | .bs disp => Sys2Proof.Machine.execBs disp s
  | .abs w o => Sys2Proof.Machine.execAbs w o s
  | .neg w o => Sys2Proof.Machine.execNeg w o s
  | .inv w o => Sys2Proof.Machine.execInv w o s
  | .clr w o => Sys2Proof.Machine.execClr w o s
  | .fetch w o => Sys2Proof.Machine.execFetch w o s
  | .case w o => Sys2Proof.Machine.execCase w o s
  | .push w o => Sys2Proof.Machine.execPush w o s
  | .cz w o => Sys2Proof.Machine.execCz w o s
  | .inc w o => Sys2Proof.Machine.execInc w o s
  | .dec w o => Sys2Proof.Machine.execDec w o s
  | .inct w o => Sys2Proof.Machine.execInct w o s
  | .dect w o => Sys2Proof.Machine.execDect w o s
  | .xgpl98 x => Sys2Proof.Machine.execXgpl98 x s
  | .add w dst src => Sys2Proof.Machine.execAdd w dst src s
  | .sub w dst src => Sys2Proof.Machine.execSub w dst src s
  | .mul w dst src => Sys2Proof.Machine.execMul w dst src s
  | .div w dst src => Sys2Proof.Machine.execDiv w dst src s
  | .and w dst src => Sys2Proof.Machine.execAnd w dst src s
  | .or w dst src => Sys2Proof.Machine.execOr w dst src s
  | .xor w dst src => Sys2Proof.Machine.execXor w dst src s
  | .st w dst src => Sys2Proof.Machine.execSt w dst src s
  | .ex w dst src => Sys2Proof.Machine.execEx w dst src s
  | .ch w dst src => Sys2Proof.Machine.execCh w dst src s
  | .che w dst src => Sys2Proof.Machine.execChe w dst src s
  | .cgt w dst src => Sys2Proof.Machine.execCgt w dst src s
  | .cge w dst src => Sys2Proof.Machine.execCge w dst src s
  | .ceq w dst src => Sys2Proof.Machine.execCeq w dst src s
  | .clog w dst src => Sys2Proof.Machine.execClog w dst src s
  | .sra w dst src => Sys2Proof.Machine.execSra w dst src s
  | .sll w dst src => Sys2Proof.Machine.execSll w dst src s
  | .srl w dst src => Sys2Proof.Machine.execSrl w dst src s
  | .src w dst src => Sys2Proof.Machine.execSrc w dst src s
  | .coinc w dst src => Sys2Proof.Machine.execCoinc w dst src s
  | .xgplF0 x => Sys2Proof.Machine.execXgplF0 x s
  | .io w dst src => Sys2Proof.Machine.execIo w dst src s
  | .swgr w dst src => Sys2Proof.Machine.execSwgr w dst src s
  | .xgplFC x => Sys2Proof.Machine.execXgplFC x s

end Sys2Proof.Machine
end

