-- ==== Sys2Proof/Machine/Step.lean ====
section
/-! DEFINITION. One step of the block: one transaction, atomic (R8, R290), or nothing where none has been handed over. -/

namespace Sys2Proof.Machine

/-- What the taken-up transaction does with what its window decodes to: run the instruction, or end with an exceptional
outcome (R228, R250). -/
def settle (d : Decoded) (s : State) : Host.Outcome State Fault Refusal :=
  match d with
  | .instr i _ => exec i s
  | .unknown index op =>
    .next (s.finish (.unknown (unknownResult Config.default (index.map fun k => (k, romEntry k)) op)))
  | .truncated k => .next (s.finish (.truncated k))

/-- One step. With no transaction handed over the block does nothing (R282; log 2). -/
def step (s : State) : Host.Outcome State Fault Refusal :=
  match s.request with
  | none => .next s
  | some rq => settle (decode rq.bytes) (s.begin rq)

/-- The host hands over a window that holds this one instruction, at the address of the transaction already handed over,
or at 0x0000 if there is none (log 2, log 22). -/
def State.withFetchWord (s : State) (nbits w : Nat) : State :=
  s.present ⟨match s.request with
    | none => 0
    | some rq => rq.address, bytesOfWord nbits w⟩

end Sys2Proof.Machine
end

