-- ==== Sys2Proof/Machine/Transaction.lean ====
section
/-! DEFINITION. The transaction for EVERY configuration, written from the spec's own pseudocode step by step: `Next8` and the
DecodeContext, the two extractors, the format decoders, `Decode` (R6, R80, R88, R100 to R220, R228). `step` runs the
same transaction under the default configuration through decoded instructions; the two must agree. -/

namespace Sys2Proof.Machine

/-- `Next8` (R6): the byte at the cursor, or `Truncated(cur)`. -/
def Context.next8 (bytes : List Byte) (c : Context) : Except Nat (Byte × Context) :=
  match bytes[c.cur]? with
  | none => .error c.cur
  | some v => .ok (v, { c with cur := c.cur + 1 })

/-- `Next16` (R6): first byte high. -/
def Context.next16 (bytes : List Byte) (c : Context) : Except Nat (Word × Context) := do
  let (hi, c) ← c.next8 bytes
  let (lo, c) ← c.next8 bytes
  return ((hi.setWidth 16 <<< 8) ||| lo.setWidth 16, c)

/-- Step 7 of `SrcDst` and the end of `GromOperand` (R80, R88): the index cell and its suffix. -/
def Context.readIndex (bytes : List Byte) (indexed : Bool) (text : Text) (c : Context) :
    Except Nat ((Option Word × Text) × Context) :=
  if indexed then do
    let (x, c) ← c.next8 bytes
    let index := scratchBase + x.setWidth 16
    return ((some index, text ++ "(@>".toList ++ hex4 index ++ ")".toList), c)
  else .ok ((none, text), c)

/-- Step 3 of `SrcDst` (R80, R83): the extended escape. -/
def Context.readEscape (bytes : List Byte) (r : Word) (c : Context) : Except Nat ((Word × Bool) × Context) :=
  if extThreshold ≤ r then do
    let (e, c) ← c.next8 bytes
    return (((r <<< 8) ||| e.setWidth 16, true), c)
  else .ok ((r, false), c)

/-- `SrcDst()` (R80). -/
def Context.srcDst (bytes : List Byte) (c : Context) : Except Nat ((Operand × Text) × Context) := do
  let (hd, c) ← c.next8 bytes
  if hd.getLsbD 7 = false then
    let addr := scratchBase + hd.setWidth 16
    return ((.mem .cpu false addr false none, "@>".toList ++ hex4 addr), c)
  else
    let (l, c) ← c.next8 bytes
    let w : Word := (hd.setWidth 16 <<< 8) ||| l.setWidth 16
    let ((r, ext), c) ← c.readEscape bytes (w &&& 0x0FFF)
    let x := w.getLsbD 14
    let v := w.getLsbD 13
    let i := w.getLsbD 12
    let space := if v then Space.vdp else Space.cpu
    let addr := if v then (if i then r + scratchBase else r) else r + scratchBase
    let text := (if v then "V".toList else []) ++ (if i then "*".toList else "@".toList) ++ ">".toList ++ hex4 addr
    let ((index, text), c) ← c.readIndex bytes x text
    return ((.mem space i addr ext index, text), c)

/-- `GromOperand(sel, idx)` (R88). -/
def Context.gromOperand (bytes : List Byte) (sel idx : Bool) (c : Context) :
    Except Nat ((Operand × Text) × Context) :=
  if sel then c.srcDst bytes
  else do
    let (g, c) ← c.next16 bytes
    let ((index, text), c) ← c.readIndex bytes idx ("G@>".toList ++ hex4 g)
    return ((.grom g index, text), c)

/-- `Format0()`, `Format3()` and `Format7()` (R100, R150, R220). -/
def formatNone (bytes : List Byte) (c : Context) : Except Nat Context := do
  let (_, c) ← c.next8 bytes
  return { c with ops := [], text := [] }

/-- The source of `Format1()`: literal by `I`, its size by the width flag (R110). -/
def formatSource (bytes : List Byte) (imm : Bool) (c : Context) : Except Nat ((Operand × Text) × Context) :=
  if imm then
    if c.wflag then do
      let (v, c) ← c.next16 bytes
      return ((.imm16 v, ">".toList ++ hex4 v), c)
    else do
      let (v, c) ← c.next8 bytes
      return ((.imm8 v, ">".toList ++ hex2 v), c)
  else c.srcDst bytes

/-- `Format1()` (R110). -/
def formatTwo (bytes : List Byte) (c : Context) : Except Nat Context := do
  let (op, c) ← c.next8 bytes
  let c := { c with wflag := op.getLsbD 0 }
  let ((dst, dtext), c) ← c.srcDst bytes
  let ((src, stext), c) ← formatSource bytes (op.getLsbD 1) c
  return { c with ops := [src, dst], text := stext ++ ",".toList ++ dtext }

/-- `Format2Byte()` (R140). -/
def formatByteLit (bytes : List Byte) (c : Context) : Except Nat Context := do
  let (_, c) ← c.next8 bytes
  let (v, c) ← c.next8 bytes
  return { c with ops := [.imm8 v], text := ">".toList ++ hex2 v }

/-- `Format2Word()` (R141). -/
def formatWordLit (bytes : List Byte) (c : Context) : Except Nat Context := do
  let (_, c) ← c.next8 bytes
  let (v, c) ← c.next16 bytes
  return { c with ops := [.imm16 v], text := ">".toList ++ hex4 v }

/-- `Format4()` (R170). -/
def formatBranch (bytes : List Byte) (c : Context) : Except Nat Context := do
  let (op, c) ← c.next8 bytes
  let (nx, c) ← c.next8 bytes
  let imm : Word := (op.setWidth 16 <<< 8) ||| nx.setWidth 16
  let disp := imm &&& dispMask
  let tgt := disp + (c.addr &&& pageMask)
  return { c with ops := [.target tgt], text := ">".toList ++ hex4 tgt }

/-- `Format5()` (R180). -/
def formatOne (bytes : List Byte) (c : Context) : Except Nat Context := do
  let (op, c) ← c.next8 bytes
  let c := { c with wflag := op.getLsbD 0 }
  let ((o, t), c) ← c.srcDst bytes
  return { c with ops := [o], text := t }

/-- Slot (a) of `Format6()` (R200, R202). -/
def formatCount (bytes : List Byte) (numimm : Bool) (c : Context) : Except Nat ((Operand × Text) × Context) :=
  if numimm then do
    let (v, c) ← c.next16 bytes
    return ((.imm16 v, ">".toList ++ hex4 v), c)
  else c.srcDst bytes

/-- The rendering of slot (c) as `#n` (R200, R206). -/
def renderVReg (mask : Word) (vreg : Bool) (o : Operand) (t : Text) : Operand × Text :=
  if vreg then (o.trim mask, (o.trim mask).text) else (o, t)

/-- `Format6()` (R200). -/
def formatMove (cfg : Config) (bytes : List Byte) (c : Context) : Except Nat Context := do
  let (op, c) ← c.next8 bytes
  let m := cfg.moveMap
  let ((a, atext), c) ← formatCount bytes (op.getLsbD m.numimm) c
  let ((b, btext), c) ← c.gromOperand bytes (op.getLsbD m.selB) (op.getLsbD m.idxB)
  let ((d, dtext), c) ← c.gromOperand bytes (op.getLsbD m.selC) (op.getLsbD m.idxC)
  let (d, dtext) := renderVReg cfg.vregMask (op.getLsbD m.vreg) d dtext
  return { c with ops := [a, b, d], text := atext ++ ",".toList ++ btext ++ ",".toList ++ dtext }

/-- Dispatch (R228): the format, and `lit` in format 2, select the decoder; format -1 has none. -/
def formatDecoder (cfg : Config) : Format → Option (List Byte → Context → Except Nat Context)
  | .unknown => none
  | .reserved => some formatNone
  | .twoOperand => some formatTwo
  | .literal .byte => some formatByteLit
  | .literal .word => some formatWordLit
  | .noOperand => some formatNone
  | .branch => some formatBranch
  | .oneOperand => some formatOne
  | .move => some (formatMove cfg)
  | .screen => some formatNone

/-- `Decode(address, bytes)` (R228), its checks in the order of R253. -/
def transaction (cfg : Config) (rq : Request) : TxOutcome :=
  match rq.bytes with
  | [] => .truncated 0
  | op :: _ =>
    match lookup cfg.optable op with
    | none => .unknown (unknownResult cfg none op)
    | some (i, d) =>
      match formatDecoder cfg d.format with
      | none => .unknown (unknownResult cfg (some (i, d)) op)
      | some f =>
        match f rq.bytes (Context.start rq.address) with
        | .error k => .truncated k
        | .ok c => .ok (okResult cfg i d op (Context.start rq.address) c)

/-- One step of the block built with the parameters `cfg` (R4): the transaction handed over, if any, is run. -/
def stepWith (cfg : Config) (s : State) : Host.Outcome State Fault Refusal :=
  match s.request with
  | none => .next s
  | some rq => .next ((s.begin rq).finish (transaction cfg rq))

end Sys2Proof.Machine
end

