-- ==== Sys2Proof/Machine/Scan.lean ====
section
/-! DEFINITION. The scanning host of 49_dispatcher.md R240: a harness, a model of the environment, not part of the block. -/

namespace Sys2Proof.Machine

/-- The window the host cuts from its image at address `a`: up to `MAXLEN` bytes, clipped to the image (R240). An address
below `base`, which the pseudocode gives no meaning, has an empty window, since the image has no byte there and byte 0 of a
window is the byte at its address (R30): the model's choice (DESIGN CHOICE, log 33). -/
def scanWindow (image : List Byte) (base a : Nat) : List Byte :=
  if a < base then [] else (image.drop (a - base)).take maxLen

/-- `Scan` from address `a` (R240): advance by the length, stop at the first `TRUNCATED`. Each turn advances by at least
one byte, so `stop - a` turns are enough. R240's host keeps every address within 0x0000 to 0x10000 and leaves a scan across
0xFFFF open; `stop` has no bound here, and such a scan goes on, each address handed to the block modulo 2^16: the model's
choice (DESIGN CHOICE, log 35). -/
def scanFrom (cfg : Config) (image : List Byte) (base stop : Nat) : Nat → Nat → List (Nat × TxOutcome)
  | 0, _ => []
  | turns + 1, a =>
    if a < stop then
      match transaction cfg ⟨BitVec.ofNat 16 a, scanWindow image base a⟩ with
      | .truncated k => [(a, .truncated k)]
      | .ok r => (a, .ok r) :: scanFrom cfg image base stop turns (a + r.length)
      | .unknown r => (a, .unknown r) :: scanFrom cfg image base stop turns (a + r.length)
    else []

/-- `Scan(image, base, start, end)` (R240). -/
def scan (cfg : Config) (image : List Byte) (base start stop : Nat) : List (Nat × TxOutcome) :=
  scanFrom cfg image base stop (stop - start) start

end Sys2Proof.Machine
end

