-- ==== Sys2Proof/Safety.lean ====
section
/-! DEFINITION. What counts as a safe state of the block, in the terms the statements use, and the records that the rules of
each format give, written from the rules' own constants. -/

namespace Sys2Proof.Machine

/-- The lengths a format allows, least and greatest (30_encoding.md R52). -/
def lengthRange : Format → Nat × Nat
  | .unknown => (1, 1)
  | .reserved => (1, 1)
  | .twoOperand => (3, 9)
  | .literal .byte => (2, 2)
  | .literal .word => (3, 3)
  | .noOperand => (1, 1)
  | .branch => (2, 2)
  | .oneOperand => (2, 5)
  | .move => (4, 13)
  | .screen => (1, 1)

/-- How many operands a format reports (R53, R20). -/
def arity : Format → Nat
  | .unknown => 0
  | .reserved => 0
  | .twoOperand => 2
  | .literal _ => 1
  | .noOperand => 0
  | .branch => 1
  | .oneOperand => 1
  | .move => 3
  | .screen => 0

/-- Only formats 1 and 5 write the width flag (10_state.md R17). -/
def writesWidth : Format → Bool
  | .twoOperand => true
  | .oneOperand => true
  | _ => false

/-- An index cell lies in 0x8300 to 0x83FF (R86). -/
def indexBounded : Option Word → Prop
  | none => True
  | some a => 0x8300#16 ≤ a ∧ a ≤ 0x83FF#16

/-- The legal values of an operand's fields (R21, R86, R206). -/
def Operand.bounded : Operand → Prop
  | .mem _ _ _ _ ix => indexBounded ix
  | .grom _ ix => indexBounded ix
  | .vreg n => n ≤ 7
  | _ => True

/-- A record the block with the default parameters may return on `OK` (R20, R52, R17, R61, R232). -/
structure Result.Sound (r : Result) : Prop where
  entry : ∃ i d, r.index = some i ∧ defaultTable[i]? = some d ∧ d.covers r.opcode = true ∧
    r.mnemonic = d.mnemonic ∧ r.format = d.format
  routine : r.format ≠ .unknown
  length : (lengthRange r.format).1 ≤ r.length ∧ r.length ≤ (lengthRange r.format).2
  width : r.wflag = (writesWidth r.format && r.opcode.getLsbD 0)
  operands : r.ops.length = arity r.format
  legal : ∀ o ∈ r.ops, o.bounded
  optext : r.optext = joinComma (r.ops.map Operand.text)
  line : ∃ a, r.line = compose Config.default a r.wflag r.mnemonic r.optext

/-- An outcome the block with the default parameters may return: with its total table never `UNKNOWN` (R55), and a
`TRUNCATED` offset inside the longest instruction (R252). -/
def TxOutcome.Sound : TxOutcome → Prop
  | .ok r => r.Sound
  | .unknown _ => False
  | .truncated k => k ≤ 12

/-- The invariant: between steps no context exists (R24), and the output, if any, is a legal outcome. -/
def State.Safe (s : State) : Prop := s.ctx = none ∧ ∀ o, s.outcome = some o → o.Sound

/-- The length an outcome reports to the host (R240): none for `TRUNCATED`. -/
def TxOutcome.length? : TxOutcome → Option Nat
  | .ok r => some r.length
  | .unknown r => some r.length
  | .truncated _ => none

/-- An outcome without its line: the structured fields of R232. -/
def TxOutcome.dropLine : TxOutcome → TxOutcome
  | .ok r => .ok { r with line := [] }
  | .unknown r => .unknown { r with line := [] }
  | .truncated k => .truncated k

/-- Every step that takes up this transaction, from whatever state, ends with this outcome and nothing else. -/
def Reports (rq : Request) (o : TxOutcome) : Prop :=
  ∀ s, s.request = some rq → step s = .next { request := none, ctx := none, outcome := some o }

/-- The line of R232, written out: address, separator, marker and mnemonic in their field, a space, the operand text. -/
def lineOf (cfg : Config) (address : Word) (wflag : Bool) (mnemonic optext : Text) : Text :=
  hex4 address ++ cfg.addrSep ++ padr ((if wflag then [cfg.widthMark] else []) ++ mnemonic) cfg.mnemWidth ++ [' '] ++ optext

/-- A record of the given parts, its line composed for the address (R20, R228, R232). -/
def record (cfg : Config) (address : Word) (index : Nat) (mnemonic : Text) (format : Format) (opcode : Byte)
    (wflag : Bool) (ops : List Operand) (optext : Text) (length : Nat) : Result :=
  { index := some index, opcode := opcode, mnemonic := mnemonic, format := format, wflag := wflag, ops := ops,
    optext := optext, line := lineOf cfg address wflag mnemonic optext, length := length }

/-- The record of the unknown-opcode diagnostic (R234): it replaces the line, reports the byte and length 1. -/
def diagnostic (cfg : Config) (index : Option Nat) (opcode : Byte) (mnemonic : Text) : Result :=
  { index := index, opcode := opcode, mnemonic := mnemonic, format := .unknown, wflag := false, ops := [],
    optext := [], line := cfg.diag opcode, length := 1 }

/-- The outcome of an instruction that does not write the width flag, run in context `c` by the default block. -/
def keepsFlag (c : Context) (index : Nat) (mnemonic : Text) (format : Format) (opcode : Byte) (ops : List Operand)
    (optext : Text) (length : Nat) : TxOutcome :=
  .ok (record Config.default c.addr index mnemonic format opcode c.wflag ops optext length)

/-- The outcome of a one-byte instruction (R100, R150, R220). -/
def plainOutcome (c : Context) (index : Nat) (mnemonic : Text) (format : Format) (opcode : Byte) : TxOutcome :=
  keepsFlag c index mnemonic format opcode [] [] 1

/-- The outcome of a format-5 instruction of the pair at `base` (R180). -/
def oneOutcome (c : Context) (index : Nat) (mnemonic : Text) (base : Byte) (w : Bool) (o : SrcDst) : TxOutcome :=
  .ok (record Config.default c.addr index mnemonic .oneOperand (base + if w then 1 else 0)
    w [o.operand] o.operand.text (1 + o.size))

/-- The outcome of a format-1 instruction of the group at `base` (R110): source first in operands and text. -/
def twoOutcome (c : Context) (index : Nat) (mnemonic : Text) (base : Byte) (w : Bool) (dst : SrcDst) (src : Source) :
    TxOutcome :=
  .ok (record Config.default c.addr index mnemonic .twoOperand
    (base + (if src.isLit then 2 else 0) + if w then 1 else 0) w
    [src.operandOf, dst.operand] (src.operandOf.text ++ [','] ++ dst.operand.text) (1 + dst.size + src.size))

/-- The outcome of a format-4 instruction of the group at `base` (R170). -/
def branchOutcome (c : Context) (index : Nat) (mnemonic : Text) (base : Byte) (disp : BitVec 13) : TxOutcome :=
  keepsFlag c index mnemonic .branch (base + BitVec.ofNat 8 (disp.toNat / 256))
    [.target (disp.setWidth 16 + c.page)] ('>' :: hex4 (disp.setWidth 16 + c.page)) 2

/-- The least and greatest length of a MOVE for each mode value, as R208 tabulates them (0x20 to 0x3F). -/
def moveLengths : List (Nat × Nat) :=
  [ (6, 9), (7, 7), (6, 9), (7, 7), (7, 10), (8, 8), (7, 10), (8, 8),
    (6, 12), (7, 10), (6, 12), (7, 10), (6, 12), (7, 10), (6, 12), (7, 10) ] ++
  [ (5, 11), (6, 9), (5, 11), (6, 9), (6, 12), (7, 10), (6, 12), (7, 10),
    (4, 13), (5, 11), (4, 13), (5, 11), (4, 13), (5, 11), (4, 13), (5, 11) ]

end Sys2Proof.Machine
end

