-- ==== Sys2Proof/Certificates/Slice0/Obligations.lean ====
section
/-! DEFINITION. The statements for the provers. Each docstring names the rules of spec/ the statement formalises. -/

open Sys2Proof Sys2Proof.Machine

/-! ### The step and the state -/

/-- When the window handed over decodes to an instruction, the step is that instruction's meaning, run in the fresh context
of R15 and R228; the request is taken up and no earlier outcome is left (R286). One transaction as one step: log 1. -/
def Obligations.StepRunsDecodedInstruction : Prop :=
  ∀ (s : State) (rq : Request) (i : Instr) (n : Nat), s.request = some rq → decode rq.bytes = .instr i n →
    step s = exec i ⟨none, some ⟨rq.address, rq.address &&& 0xE000, 0, false, [], []⟩, none⟩

/-- Every step answers a next state. A transaction handed over is consumed, leaves no context and has an outcome, one of the three
(R237, R255); that `UNKNOWN` and `TRUNCATED(k)` are next states too is the model's choice (log 3). With nothing handed over the
state stays as it is, which is the model's choice as well (log 2). -/
def Obligations.EveryStepAnswersNext : Prop :=
  ∀ s : State, ∃ t, step s = .next t ∧ (s.request = none → t = s) ∧
    (s.request ≠ none → t.request = none ∧ t.ctx = none ∧ ∃ o, t.outcome = some o)

/-- The model's choice (log 2), from R282: with no transaction handed over a step changes nothing. -/
def Obligations.IdleStepKeepsState : Prop :=
  ∀ s : State, s.request = none → step s = .next s

/-- After construction no DecodeContext exists and no output is pending (R24, R281). -/
def Obligations.ResetHasNoContextAndNoOutput : Prop :=
  State.reset.ctx = none ∧ State.reset.outcome = none

/-- The default ROM of R58, which is PRESUMED beyond the five anchored bytes (log 4), meets R55 to R57, as R280 asks at
construction: every opcode byte has a routine, the five entries the source fixes are there (the format of `RTN` is one the spec
derives), specific ranges precede overlapping catch-all ranges (log 32), the entries of format 0 are those named `XGPL`, one
opcode uses format 7, format 6 is `MOVE` (log 34); and every entry is legal by R11, with 1 to 5 visible characters (log 31). -/
def Obligations.RomMeetsItsRulesAtReset : Prop :=
  Config.default.tableTotal = true ∧ Config.default.anchors = true ∧ Config.default.romValid = true

/-- The invariant holds after construction. -/
def Obligations.SafetyHoldsAtReset : Prop := State.reset.Safe

/-- From every safe state a step gives a safe state: no context between transactions (R24), and an output that is a legal
outcome: its entry of the ROM, its length (R52), width flag (R17), operands (R20, R21, R86, R206), text (R61) and line (R232),
never `UNKNOWN` (R55), a `TRUNCATED` offset below 13 (R252). The parameters are the defaults (logs 4 to 8, 12). -/
def Obligations.EveryStepKeepsSafety : Prop :=
  ∀ s t : State, s.Safe → step s = .next t → t.Safe

/-- The machine that decodes to an instruction and runs its meaning is the block of the spec's pseudocode under the default
parameters (R228). -/
def Obligations.StepAgreesWithSpecTransaction : Prop :=
  ∀ s : State, step s = stepWith Config.default s

/-- Nothing but the transaction handed over influences a step: no earlier context, outcome or flag (R39, R285, R286). -/
def Obligations.StepDependsOnRequestAlone : Prop :=
  ∀ s s' : State, s.request = s'.request → s.request ≠ none → step s = step s'

/-! ### Decoding and encoding -/

/-- Decoding the encoding of a well-formed instruction, whatever follows it, gives the instruction back, with its length. -/
def Obligations.DecodeOfEncodeIsIdentity : Prop :=
  ∀ (i : Instr) (rest : List Byte), i.wf = true → decode (encode i ++ rest) = .instr i (encode i).length

/-- What decodes to an instruction is that instruction's encoding, followed by bytes that were not read; the instruction is
well-formed. -/
def Obligations.EncodeOfDecodeIsIdentity : Prop :=
  ∀ (bytes : List Byte) (i : Instr) (n : Nat), decode bytes = .instr i n →
    i.wf = true ∧ n = (encode i).length ∧ ∃ rest, bytes = encode i ++ rest

/-- Every proper part of an encoding, from its start, is truncated at its own end (R238, R252). -/
def Obligations.PartOfEncodingIsTruncated : Prop :=
  ∀ (i : Instr) (m : Nat), i.wf = true → m < (encode i).length → decode ((encode i).take m) = .truncated m

/-- A few words written from the spec's encodings decode to the instructions they stand for, under the default ROM and MOVE map
(logs 4 and 5). -/
def Obligations.SampleWordsDecode : Prop :=
  decode [0x00] = .instr .rtn 1 ∧ decode [0x04, 0x2A] = .instr (.back 0x2A) 2 ∧
  decode [0x05, 0x12, 0x34] = .instr (.b 0x1234) 3 ∧ decode [0x14] = .instr (.xgpl14 0) 1 ∧
  decode [0x40, 0x34] = .instr (.br 0x034) 2 ∧ decode [0x08] = .instr .fmt 1 ∧
  decode [0x86, 0xFF, 0xFF, 0xFF, 0xFF] = .instr (.clr false (.far true true 0xFFFF (some 0xFF))) 5 ∧
  decode [0xA2, 0x80, 0x10, 0x05] = .instr (.add false (.near false false 0x010 none) (.lit8 0x05)) 4 ∧
  decode [0x31, 0x00, 0x20, 0xA1, 0x00, 0x12, 0x34] =
    .instr (.move 0b10001 (.lit 0x0020) (.operand (.near true false 0x100 none)) (.grom ⟨0x1234, none⟩)) 7

/-! ### The decoder ROM -/

/-- R225: the empty window ends the transaction at once; lookup gives the first entry, in the ROM's order, whose range contains
the opcode byte, and nothing exactly when no entry does; with a total table (R55) it always gives an entry. -/
def Obligations.LookupGivesFirstMatchingEntry : Prop :=
  (∀ (cfg : Config) (a : Word), transaction cfg ⟨a, []⟩ = .truncated 0) ∧
  (∀ (table : List Descriptor) (op : Byte) (i : Nat) (d : Descriptor), lookup table op = some (i, d) ↔
    table[i]? = some d ∧ d.lo ≤ op ∧ op ≤ d.hi ∧
      ∀ (j : Nat) (e : Descriptor), j < i → table[j]? = some e → ¬ (e.lo ≤ op ∧ op ≤ e.hi)) ∧
  (∀ (table : List Descriptor) (op : Byte), lookup table op = none ↔ ∀ d ∈ table, ¬ (d.lo ≤ op ∧ op ≤ d.hi)) ∧
  (∀ (cfg : Config) (op : Byte), cfg.tableTotal = true → ∃ i d, lookup cfg.optable op = some (i, d) ∧ d.format ≠ .unknown)

/-- R13: the 256-entry ROM gives for each opcode byte the index the ordered scan gives, or none where it finds none. -/
def Obligations.FlatRomAgreesWithScan : Prop :=
  ∀ (table : List Descriptor) (op : Byte), (flatRom table)[op.toNat]? = some ((lookup table op).map Prod.fst)

/-- The ranges of the default ROM (R58, from general knowledge: log 4) contain each opcode byte exactly once, so that the order
of its 61 entries decides nothing. -/
def Obligations.DefaultRangesCoverEachByteOnce : Prop :=
  defaultTable.length = 61 ∧ ∀ op : Byte, defaultTable.countP (fun d => d.covers op) = 1

/-- R226, R234: a byte that no entry covers, or whose first covering entry has format -1, gives the diagnostic, whatever follows
it and whatever the address; the default diagnostic, `Invalid opcode >` and the byte, is the spec's own wording (D16, log 8).
That the record of a matched entry of format -1 carries that entry's mnemonic is the model's choice of R234 and V8.5 over the
table of R20, which says empty (log 16). -/
def Obligations.ByteWithoutRoutineGivesDiagnostic : Prop :=
  (∀ (cfg : Config) (a : Word) (op : Byte) (rest : List Byte), lookup cfg.optable op = none →
    transaction cfg ⟨a, op :: rest⟩ = .unknown (diagnostic cfg none op [])) ∧
  (∀ (cfg : Config) (a : Word) (op : Byte) (rest : List Byte) (i : Nat) (d : Descriptor),
    lookup cfg.optable op = some (i, d) → d.format = .unknown →
    transaction cfg ⟨a, op :: rest⟩ = .unknown (diagnostic cfg (some i) op d.mnemonic)) ∧
  ∀ op : Byte, Config.default.diag op = "Invalid opcode >".toList ++ hex2 op

/-- R251: `UNKNOWN` is the outcome exactly of a window whose opcode byte no entry covers, or whose first covering entry has
format -1. -/
def Obligations.UnknownExactlyWithoutRoutine : Prop :=
  ∀ (cfg : Config) (rq : Request), (∃ r, transaction cfg rq = .unknown r) ↔
    ∃ op rest, rq.bytes = op :: rest ∧
      (lookup cfg.optable op = none ∨ ∃ i d, lookup cfg.optable op = some (i, d) ∧ d.format = .unknown)

/-- R55: with a total table no window gives `UNKNOWN`. -/
def Obligations.TotalTableNeverReportsUnknown : Prop :=
  ∀ (cfg : Config) (rq : Request) (r : Result), cfg.tableTotal = true → transaction cfg rq ≠ .unknown r

/-! ### The operand extractors -/

/-- R80, R87: at the bytes of any well-formed operand, wherever the cursor stands, `SrcDst` consumes exactly those bytes and
gives the operand's fields and text; it touches nothing else of the context. The base added to an extended offset and the wrap
are decisions D6 and D7 (logs 10 and 11). -/
def Obligations.SrcDstReadsEveryForm : Prop :=
  ∀ (o : SrcDst) (before rest : List Byte) (c : Context), o.wf = true → c.cur = before.length →
    c.srcDst (before ++ o.encode ++ rest) = .ok ((o.operand, o.operand.text), { c with cur := c.cur + o.size })

/-- R91: an extractor that fails does so at the end of the window, within the first four bytes of the operand. -/
def Obligations.SrcDstTruncatesAtWindowEnd : Prop :=
  ∀ (bytes : List Byte) (c : Context) (k : Nat), c.cur ≤ bytes.length → c.srcDst bytes = .error k →
    k = bytes.length ∧ k ≤ c.cur + 3

/-- R88: the GROM form reads a big-endian address, adds no base, and reads an index byte exactly when `idx` is set; with `sel`
set it is `SrcDst`, and `idx` has no effect. A window that ends inside the operand is truncated at its end. -/
def Obligations.GromOperandReadsEveryForm : Prop :=
  (∀ (bytes : List Byte) (idx : Bool) (c : Context), c.gromOperand bytes true idx = c.srcDst bytes) ∧
  ∀ (hi lo : Byte) (index : Option Byte) (before rest : List Byte) (c : Context), c.cur = before.length →
    let size := 2 + if index.isSome then 1 else 0
    let cell := index.map fun x => x.setWidth 16 + 0x8300#16
    let suffix := match cell with
      | none => []
      | some x => "(@>".toList ++ hex4 x ++ ")".toList
    c.gromOperand (before ++ [hi, lo] ++ index.toList ++ rest) false index.isSome =
      .ok ((.grom (hi ++ lo) cell, "G@>".toList ++ hex4 (hi ++ lo) ++ suffix), { c with cur := c.cur + size }) ∧
    ∀ m : Nat, m < size →
      c.gromOperand (before ++ ([hi, lo] ++ index.toList).take m) false index.isSome = .error (before.length + m)

/-- R87, R81, R86: space, address, text and size of each addressing mode, the sums written as the table has them, modulo 2^16
(decisions D6 and D7: logs 10 and 11). -/
def Obligations.AddressingModeTable : Prop :=
  (∀ a : BitVec 7, (SrcDst.short a).operand = .mem .cpu false (a.setWidth 16 + 0x8300) false none ∧
    (SrcDst.short a).operand.text = "@>".toList ++ hex4 (a.setWidth 16 + 0x8300) ∧ (SrcDst.short a).size = 1) ∧
  (∀ (off : BitVec 12) (ix : Option Byte), let cell := ix.map fun x => x.setWidth 16 + 0x8300#16
    (SrcDst.near false false off ix).operand = .mem .cpu false (off.setWidth 16 + 0x8300) false cell ∧
    (SrcDst.near false true off ix).operand = .mem .cpu true (off.setWidth 16 + 0x8300) false cell ∧
    (SrcDst.near true false off ix).operand = .mem .vdp false (off.setWidth 16) false cell ∧
    (SrcDst.near true true off ix).operand = .mem .vdp true (off.setWidth 16 + 0x8300) false cell) ∧
  (∀ (a : Word) (ix : Option Byte), let cell := ix.map fun x => x.setWidth 16 + 0x8300#16
    (SrcDst.far false false a ix).operand = .mem .cpu false (a + 0x8300) true cell ∧
    (SrcDst.far false true a ix).operand = .mem .cpu true (a + 0x8300) true cell ∧
    (SrcDst.far true false a ix).operand = .mem .vdp false a true cell ∧
    (SrcDst.far true true a ix).operand = .mem .vdp true (a + 0x8300) true cell) ∧
  (∀ (a : Word) (e : Bool) (ix : Option Word), let suffix := match ix with
      | none => []
      | some x => "(@>".toList ++ hex4 x ++ ")".toList
    (Operand.mem .cpu false a e ix).text = "@>".toList ++ hex4 a ++ suffix ∧
    (Operand.mem .cpu true a e ix).text = "*>".toList ++ hex4 a ++ suffix ∧
    (Operand.mem .vdp false a e ix).text = "V@>".toList ++ hex4 a ++ suffix ∧
    (Operand.mem .vdp true a e ix).text = "V*>".toList ++ hex4 a ++ suffix) ∧
  (∀ (v i : Bool) (off : BitVec 12) (a : Word) (x : Byte),
    (SrcDst.near v i off none).size = 2 ∧ (SrcDst.far v i a none).size = 3 ∧
    (SrcDst.near v i off (some x)).size = 3 ∧ (SrcDst.far v i a (some x)).size = 4)

/-- R90: which sums wrap. The short and two-byte forms and the index cell never do; an extended offset does exactly from
0x7D00 on (decision D7, log 11). -/
def Obligations.OnlyExtendedSumsWrap : Prop :=
  (∀ a : BitVec 7, (scratchBase + a.setWidth 16).toNat = 0x8300 + a.toNat) ∧
  (∀ x : Byte, (indexCell x).toNat = 0x8300 + x.toNat) ∧
  (∀ (v i : Bool) (off : BitVec 12), (SrcDst.near v i off none).wf = true →
    (effectiveAddr v i (off.setWidth 16)).toNat = (if v = true ∧ i = false then 0 else 0x8300) + off.toNat ∧
    (effectiveAddr v i (off.setWidth 16)).toNat ≤ 0x91FF) ∧
  (∀ (v i : Bool) (a : Word), ¬ (v = true ∧ i = false) →
    (a.toNat < 0x7D00 → (effectiveAddr v i a).toNat = a.toNat + 0x8300) ∧
    (0x7D00 ≤ a.toNat → (effectiveAddr v i a).toNat = a.toNat - 0x7D00)) ∧
  (∀ a : Word, effectiveAddr true false a = a)

/-! ### The format decoders, for every configuration -/

/-- R100, R150, R220: formats 0, 3 and 7 take the opcode byte alone, whatever follows. -/
def Obligations.FormatsWithoutOperand : Prop :=
  ∀ (cfg : Config) (a : Word) (op : Byte) (rest : List Byte) (i : Nat) (d : Descriptor),
    lookup cfg.optable op = some (i, d) → d.format = .reserved ∨ d.format = .noOperand ∨ d.format = .screen →
    transaction cfg ⟨a, op :: rest⟩ =
      .ok (record cfg a i d.mnemonic d.format op false [] [] 1)

/-- R140: format 2, byte layout: one literal byte, no flag, `Truncated(1)` without it. -/
def Obligations.FormatByteLiteral : Prop :=
  ∀ (cfg : Config) (a : Word) (op : Byte) (i : Nat) (d : Descriptor),
    lookup cfg.optable op = some (i, d) → d.format = .literal .byte →
    transaction cfg ⟨a, [op]⟩ = .truncated 1 ∧
    ∀ (v : Byte) (rest : List Byte), transaction cfg ⟨a, op :: v :: rest⟩ =
      .ok (record cfg a i d.mnemonic (.literal .byte) op false [.imm8 v] ('>' :: hex2 v) 2)

/-- R141: format 2, word layout: two literal bytes, first high, no flag; `Truncated(1)` and `Truncated(2)` without them. -/
def Obligations.FormatWordLiteral : Prop :=
  ∀ (cfg : Config) (a : Word) (op : Byte) (i : Nat) (d : Descriptor),
    lookup cfg.optable op = some (i, d) → d.format = .literal .word →
    transaction cfg ⟨a, [op]⟩ = .truncated 1 ∧ (∀ hi : Byte, transaction cfg ⟨a, [op, hi]⟩ = .truncated 2) ∧
    ∀ (hi lo : Byte) (rest : List Byte), transaction cfg ⟨a, op :: hi :: lo :: rest⟩ =
      .ok (record cfg a i d.mnemonic (.literal .word) op false [.imm16 (hi ++ lo)] ('>' :: hex4 (hi ++ lo)) 3)

/-- R170: the target of a branch is the 13-bit displacement plus the page of the instruction's own address; the sum does not
carry, the target stays in that page, and the low 13 bits of the address have no influence; `Truncated(1)` without byte 1. -/
def Obligations.FormatBranch : Prop :=
  (∀ (cfg : Config) (a : Word) (op : Byte) (i : Nat) (d : Descriptor),
    lookup cfg.optable op = some (i, d) → d.format = .branch →
    transaction cfg ⟨a, [op]⟩ = .truncated 1 ∧
    ∀ (nx : Byte) (rest : List Byte), ∃ tgt : Word,
      tgt.toNat = (op.toNat * 256 + nx.toNat) % 0x2000 + a.toNat / 0x2000 * 0x2000 ∧
      tgt &&& 0xE000 = a &&& 0xE000 ∧
      transaction cfg ⟨a, op :: nx :: rest⟩ =
        .ok (record cfg a i d.mnemonic .branch op false [.target tgt] ('>' :: hex4 tgt) 2))

/-- R180: format 5: the width flag is bit 0 of the opcode byte and changes nothing in the operand; every operand form is
accepted; a window that ends inside the operand is truncated there. -/
def Obligations.FormatOneOperand : Prop :=
  ∀ (cfg : Config) (a : Word) (op : Byte) (i : Nat) (d : Descriptor) (o : SrcDst),
    lookup cfg.optable op = some (i, d) → d.format = .oneOperand → o.wf = true →
    (∀ m : Nat, m < o.size → transaction cfg ⟨a, op :: o.encode.take m⟩ = .truncated (1 + m)) ∧
    ∀ rest : List Byte, transaction cfg ⟨a, op :: (o.encode ++ rest)⟩ =
      .ok (record cfg a i d.mnemonic .oneOperand op (op.getLsbD 0) [o.operand] o.operand.text (1 + o.size))

/-- R110: format 1: destination first in the stream, source first in the operands and the text; bit 0 of the opcode byte is the
width flag, bit 1 makes the source a literal whose size follows the flag; a window that ends early is truncated there. -/
def Obligations.FormatTwoOperand : Prop :=
  ∀ (cfg : Config) (a : Word) (op : Byte) (i : Nat) (d : Descriptor) (dst : SrcDst) (src : Source),
    lookup cfg.optable op = some (i, d) → d.format = .twoOperand → dst.wf = true → src.wf (op.getLsbD 0) = true →
    src.isLit = op.getLsbD 1 →
    (∀ m : Nat, m < dst.size + src.size →
      transaction cfg ⟨a, op :: (dst.encode ++ src.encode).take m⟩ = .truncated (1 + m)) ∧
    ∀ rest : List Byte, transaction cfg ⟨a, op :: (dst.encode ++ src.encode ++ rest)⟩ =
      .ok (record cfg a i d.mnemonic .twoOperand op (op.getLsbD 0) [src.operandOf, dst.operand]
        (src.operandOf.text ++ ',' :: dst.operand.text) (1 + dst.size + src.size))

/-- R200, R202, R204, R205, R206: format 6 under any `MOVE_MAP` and `VREG_MASK`: the mode field's flags select what each slot is;
slot (c) is rendered as a register number when `vreg` is set; the width flag stays 0. -/
def Obligations.FormatMove : Prop :=
  ∀ (cfg : Config) (adr : Word) (op : Byte) (i : Nat) (d : Descriptor) (a : Count) (b c : Slot),
    lookup cfg.optable op = some (i, d) → d.format = .move → a.wf (op.getLsbD cfg.moveMap.numimm) = true →
    b.wf (op.getLsbD cfg.moveMap.selB) (op.getLsbD cfg.moveMap.idxB) = true →
    c.wf (op.getLsbD cfg.moveMap.selC) (op.getLsbD cfg.moveMap.idxC) = true →
    (∀ m : Nat, m < a.size + b.size + c.size →
      transaction cfg ⟨adr, op :: (a.encode ++ b.encode ++ c.encode).take m⟩ = .truncated (1 + m)) ∧
    let slotC := if op.getLsbD cfg.moveMap.vreg then c.operandOf.trim cfg.vregMask else c.operandOf
    let text := a.operandOf.text ++ ',' :: (b.operandOf.text ++ ',' :: slotC.text)
    ∀ rest : List Byte, transaction cfg ⟨adr, op :: (a.encode ++ b.encode ++ c.encode ++ rest)⟩ =
      .ok (record cfg adr i d.mnemonic .move op false [a.operandOf, b.operandOf, slotC] text
        (1 + a.size + b.size + c.size))

/-! ### Properties of every transaction -/

/-- R238, which the spec derives from R225, R228 and `Next8`: an `OK` outcome of length `L` is that of every window with the same first `L` bytes, and every shorter non-empty part
of the window gives `TRUNCATED` at its own length. -/
def Obligations.WindowMonotonicity : Prop :=
  ∀ (cfg : Config) (a : Word) (bytes : List Byte) (r : Result), transaction cfg ⟨a, bytes⟩ = .ok r →
    (∀ bytes' : List Byte, bytes'.take r.length = bytes.take r.length → transaction cfg ⟨a, bytes'⟩ = .ok r) ∧
    ∀ m : Nat, 0 < m → m < r.length → transaction cfg ⟨a, bytes.take m⟩ = .truncated m

/-- R252: the offset of the first missing byte is the window's length. -/
def Obligations.TruncationOffsetIsWindowLength : Prop :=
  ∀ (cfg : Config) (rq : Request) (k : Nat), transaction cfg rq = .truncated k → k = rq.bytes.length

/-- R32, R52: the length of an `OK` outcome lies within its format's bounds and within the window. -/
def Obligations.LengthWithinFormatBounds : Prop :=
  ∀ (cfg : Config) (rq : Request) (r : Result), transaction cfg rq = .ok r →
    (lengthRange r.format).1 ≤ r.length ∧ r.length ≤ (lengthRange r.format).2 ∧ r.length ≤ rq.bytes.length

/-- R208, under the default MOVE map (log 5): the lengths of a MOVE by its opcode byte, and that its `OK` outcome has three operands. -/
def Obligations.MoveLengthsByMode : Prop :=
  ∀ (adr : Word) (mode : BitVec 5) (rest : List Byte) (r : Result),
    transaction Config.default ⟨adr, (0b001#3 ++ mode) :: rest⟩ = .ok r →
    r.format = .move ∧ r.ops.length = 3 ∧
      ∃ range, moveLengths[mode.toNat]? = some range ∧ range.1 ≤ r.length ∧ r.length ≤ range.2

/-- R236: of the address only the page reaches the structured fields, and it only through format 4. -/
def Obligations.AddressReachesOnlyLineAndTarget : Prop :=
  (∀ (cfg : Config) (a a' : Word) (bytes : List Byte), a &&& 0xE000 = a' &&& 0xE000 →
    (transaction cfg ⟨a, bytes⟩).dropLine = (transaction cfg ⟨a', bytes⟩).dropLine) ∧
  ∀ (cfg : Config) (a a' : Word) (op : Byte) (rest : List Byte),
    (∀ i d, lookup cfg.optable op = some (i, d) → d.format ≠ .branch) →
    (transaction cfg ⟨a, op :: rest⟩).dropLine = (transaction cfg ⟨a', op :: rest⟩).dropLine

/-- R17: the width flag of an `OK` outcome is bit 0 of the opcode byte in formats 1 and 5, and 0, its value at the start (decision
D9, log 12), in every other. -/
def Obligations.WidthFlagFollowsFormatAndBitZero : Prop :=
  ∀ (cfg : Config) (rq : Request) (r : Result), transaction cfg rq = .ok r →
    r.wflag = (writesWidth r.format && r.opcode.getLsbD 0) ∧ rq.bytes.head? = some r.opcode

/-- R232, whose layout is decisions D14 and D15 (log 7): the line of an `OK` outcome, and under the default layout its columns:
address in 0 to 3, the marker and mnemonic in a field of six from column 5, operand text from column 12. -/
def Obligations.LineComposition : Prop :=
  (∀ (cfg : Config) (rq : Request) (r : Result), transaction cfg rq = .ok r →
    r.line = lineOf cfg rq.address r.wflag r.mnemonic r.optext) ∧
  ∀ (rq : Request) (r : Result), transaction Config.default rq = .ok r →
    r.line.take 4 = hex4 rq.address ∧ r.line.drop 12 = r.optext ∧
      (r.line.drop 5).take 7 = padr ((if r.wflag then ['D'] else []) ++ r.mnemonic) 7

/-! ### What each instruction's meaning answers -/

/-- R101 to R104: the five rows of `XGPL` complete with one byte, no operand, the flag as it was. The ranges are the default
ROM's (log 4). -/
def Obligations.ReservedOpcodesComplete : Prop :=
  ∀ (s : State) (c : Context) (x : BitVec 2) (y : BitVec 3), s.ctx = some c →
    exec (.xgpl14 x) s = .next (s.finish (plainOutcome c 20 "XGPL".toList .reserved (0x14 + x.setWidth 8))) ∧
    exec (.xgpl18 y) s = .next (s.finish (plainOutcome c 20 "XGPL".toList .reserved (0x18 + y.setWidth 8))) ∧
    exec (.xgpl98 y) s = .next (s.finish (plainOutcome c 36 "XGPL".toList .reserved (0x98 + y.setWidth 8))) ∧
    exec (.xgplF0 x) s = .next (s.finish (plainOutcome c 57 "XGPL".toList .reserved (0xF0 + x.setWidth 8))) ∧
    exec (.xgplFC x) s = .next (s.finish (plainOutcome c 60 "XGPL".toList .reserved (0xFC + x.setWidth 8)))

/-- R151 to R162 and R221: RTN, RTNC, SCAN, H, GT, EXIT, CARRY, OVF, CONT, EXEC, RTNB, RTGR and FMT complete with one byte.
The opcode bytes are the default ROM's (log 4). -/
def Obligations.NoOperandInstructionsComplete : Prop :=
  ∀ (s : State) (c : Context), s.ctx = some c →
    (∀ e ∈ [(Instr.rtn, 0, "RTN", 0x00#8), (.rtnc, 1, "RTNC", 0x01), (.scan, 3, "SCAN", 0x03), (.h, 9, "H", 0x09),
        (.gt, 10, "GT", 0x0A), (.exit, 11, "EXIT", 0x0B), (.carry, 12, "CARRY", 0x0C), (.ovf, 13, "OVF", 0x0D),
        (.cont, 16, "CONT", 0x10), (.exec, 17, "EXEC", 0x11), (.rtnb, 18, "RTNB", 0x12), (.rtgr, 19, "RTGR", 0x13)],
      exec e.1 s = .next (s.finish (plainOutcome c e.2.1 e.2.2.1.toList .noOperand e.2.2.2))) ∧
    exec .fmt s = .next (s.finish (plainOutcome c 8 "FMT".toList .screen 0x08))

/-- R142 to R148: RAND, BACK, ALL, PARSE and XML with a byte literal, B and CALL with a word literal. The
opcode bytes are the default ROM's (log 4). -/
def Obligations.LiteralInstructionsComplete : Prop :=
  ∀ (s : State) (c : Context) (v : Byte) (u : Word), s.ctx = some c →
    (∀ e ∈ [(Instr.rand v, 2, "RAND", 0x02#8), (.back v, 4, "BACK", 0x04), (.all v, 7, "ALL", 0x07),
        (.parse v, 14, "PARSE", 0x0E), (.xml v, 15, "XML", 0x0F)],
      exec e.1 s = .next (s.finish (keepsFlag c e.2.1 e.2.2.1.toList (.literal .byte) e.2.2.2 [.imm8 v]
        ('>' :: hex2 v) 2))) ∧
    ∀ e ∈ [(Instr.b u, 5, "B", 0x05#8), (.call u, 6, "CALL", 0x06)],
      exec e.1 s = .next (s.finish (keepsFlag c e.2.1 e.2.2.1.toList (.literal .word) e.2.2.2 [.imm16 u]
        ('>' :: hex4 u) 3))

/-- R171, R172: BR and BS report the displacement in the context's page; no control is transferred (R173).
The opcode bytes are the default ROM's (log 4). -/
def Obligations.BranchInstructionsComplete : Prop :=
  ∀ (s : State) (c : Context) (disp : BitVec 13), s.ctx = some c →
    exec (.br disp) s = .next (s.finish (branchOutcome c 22 "BR".toList 0x40 disp)) ∧
    exec (.bs disp) s = .next (s.finish (branchOutcome c 23 "BS".toList 0x60 disp))

/-- R181 to R192: the twelve one-operand instructions, for both widths and every operand form. The opcode bytes are the default
ROM's (log 4). -/
def Obligations.OneOperandInstructionsComplete : Prop :=
  ∀ (s : State) (c : Context) (w : Bool) (o : SrcDst), s.ctx = some c →
    ∀ e ∈ [(Instr.abs w o, 24, "ABS", 0x80#8), (.neg w o, 25, "NEG", 0x82), (.inv w o, 26, "INV", 0x84),
        (.clr w o, 27, "CLR", 0x86), (.fetch w o, 28, "FETCH", 0x88), (.case w o, 29, "CASE", 0x8A),
        (.push w o, 30, "PUSH", 0x8C), (.cz w o, 31, "CZ", 0x8E), (.inc w o, 32, "INC", 0x90),
        (.dec w o, 33, "DEC", 0x92), (.inct w o, 34, "INCT", 0x94), (.dect w o, 35, "DECT", 0x96)],
      exec e.1 s = .next (s.finish (oneOutcome c e.2.1 e.2.2.1.toList e.2.2.2 w o))

/-- R111 to R132: the twenty-two two-operand instructions, for both widths, every destination and every source. The opcode bytes
are the default ROM's (log 4). -/
def Obligations.TwoOperandInstructionsComplete : Prop :=
  ∀ (s : State) (c : Context) (w : Bool) (dst : SrcDst) (src : Source), s.ctx = some c →
    ∀ e ∈ [(Instr.add w dst src, 37, "ADD", 0xA0#8), (.sub w dst src, 38, "SUB", 0xA4), (.mul w dst src, 39, "MUL", 0xA8),
        (.div w dst src, 40, "DIV", 0xAC), (.and w dst src, 41, "AND", 0xB0), (.or w dst src, 42, "OR", 0xB4),
        (.xor w dst src, 43, "XOR", 0xB8), (.st w dst src, 44, "ST", 0xBC), (.ex w dst src, 45, "EX", 0xC0),
        (.ch w dst src, 46, "CH", 0xC4), (.che w dst src, 47, "CHE", 0xC8), (.cgt w dst src, 48, "CGT", 0xCC),
        (.cge w dst src, 49, "CGE", 0xD0), (.ceq w dst src, 50, "CEQ", 0xD4), (.clog w dst src, 51, "CLOG", 0xD8),
        (.sra w dst src, 52, "SRA", 0xDC), (.sll w dst src, 53, "SLL", 0xE0), (.srl w dst src, 54, "SRL", 0xE4),
        (.src w dst src, 55, "SRC", 0xE8), (.coinc w dst src, 56, "COINC", 0xEC), (.io w dst src, 58, "I/O", 0xF4),
        (.swgr w dst src, 59, "SWGR", 0xF8)],
      exec e.1 s = .next (s.finish (twoOutcome c e.2.1 e.2.2.1.toList e.2.2.2 w dst src))

/-- R201, under the default MOVE map and VREG_MASK (logs 5 and 6): MOVE with every mode and every slot; slot (c) is a register
number exactly when bit 3 of the mode is set, its low three address bits (R206). -/
def Obligations.MoveCompletes : Prop :=
  ∀ (s : State) (c : Context) (mode : BitVec 5) (sa : Count) (sb sc : Slot), s.ctx = some c →
    let third := if mode.getLsbD 3 then sc.operandOf.trim 0x0007 else sc.operandOf
    let text := sa.operandOf.text ++ [','] ++ sb.operandOf.text ++ [','] ++ third.text
    exec (.move mode sa sb sc) s = .next (s.finish (keepsFlag c 21 "MOVE".toList .move (0x20 + mode.setWidth 8)
      [sa.operandOf, sb.operandOf, third] text (1 + sa.size + sb.size + sc.size)))

/-- The frame of every meaning: a next state differs from the state before only in the context, which is discarded, and in the
outcome, which is `OK`; the request is untouched, the line shows the context's address, the number of operands is the format's,
and an instruction of another format than 1 and 5 leaves the width flag as it was (R9, R15, R17). -/
def Obligations.ExecFrame : Prop :=
  ∀ (i : Instr) (s t : State), exec i s = .next t →
    ∃ (c : Context) (r : Result), s.ctx = some c ∧ t = { s with ctx := none, outcome := some (.ok r) } ∧
      r.line.take 4 = hex4 c.addr ∧ r.ops.length = arity r.format ∧ (writesWidth r.format = false → r.wflag = c.wflag)

/-- The model's choice (log 18): a meaning applied where no transaction is in progress, which no step does, faults. -/
def Obligations.ExecNeedsTransaction : Prop :=
  ∀ (i : Instr) (s : State), s.ctx = none → exec i s = .fault .noTransaction

/-! ### The interface and the scanning host -/

/-- A window that holds one well-formed instruction, handed over to any state, is run by the next step: what the host receives
is the outcome of that instruction's meaning in the fresh context (R228). -/
def Obligations.PresentedInstructionIsRun : Prop :=
  ∀ (s : State) (a : Word) (i : Instr) (rest : List Byte), i.wf = true →
    ∃ r, Reports ⟨a, encode i ++ rest⟩ (.ok r) ∧ r.length = (encode i).length ∧ r.opcode :: (encode i).tail = encode i ∧
      exec i (s.begin ⟨a, encode i ++ rest⟩) = .next { request := none, ctx := none, outcome := some (.ok r) }

/-- The very next step runs the instruction that `withFetchWord` hands over, at the address of the transaction it replaces, or
at 0x0000 (log 22). -/
def Obligations.FetchWordIsRunByNextStep : Prop :=
  ∀ (s : State) (nbits w : Nat) (i : Instr), decodeTableWord nbits w = some i →
    ∃ rq : Request, rq.bytes = bytesOfWord nbits w ∧ (s.request = none → rq.address = 0) ∧
      (∀ old, s.request = some old → rq.address = old.address) ∧
      step (s.withFetchWord nbits w) = exec i (s.begin rq)

/-- R240: the scanning host stays in its range, goes on at the address after each instruction, and goes on past every outcome
but `TRUNCATED`; where nothing was truncated it has reached the end. That a scan address below `base` has an empty window, and that a
scan across 0xFFFF goes on with addresses modulo 2^16, are the model's choices (logs 33 and 35). -/
def Obligations.ScanAdvancesByLength : Prop :=
  ∀ (cfg : Config) (image : List Byte) (base start stop : Nat),
    let out := scan cfg image base start stop
    (∀ p ∈ out, start ≤ p.1 ∧ p.1 < stop ∧ p.2 = transaction cfg ⟨BitVec.ofNat 16 p.1, scanWindow image base p.1⟩) ∧
    (∀ p, out.head? = some p → p.1 = start) ∧
    out.IsChain (fun p q => ∃ n, p.2.length? = some n ∧ 1 ≤ n ∧ q.1 = p.1 + n) ∧
    (∀ p n, out.getLast? = some p → p.2.length? = some n → stop ≤ p.1 + n) ∧
    (start < stop → out ≠ [])

/-! ### Rules of the ROM -/

/-- R56: in a ROM that construction accepts (R280), an opcode byte resolves to an entry of format 0 exactly when it resolves to
an entry named `XGPL`; and no specific entry, whose format has a routine other than the reserved one, contains a byte that
resolves to format 0. What counts as a specific entry and as a visible character is read by the model (logs 31 and 32). -/
def Obligations.ReservedEntryHidesNoSpecificEntry : Prop :=
  ∀ (cfg : Config) (op : Byte) (i : Nat) (d : Descriptor), cfg.romValid = true → lookup cfg.optable op = some (i, d) →
    (d.format = .reserved ↔ d.mnemonic = "XGPL".toList) ∧
    (d.format = .reserved → ∀ e ∈ cfg.optable, e.lo ≤ op → op ≤ e.hi → e.format = .reserved ∨ e.format = .unknown)
end

