-- ==== Sys2Proof/Laws/State.lean ====
section
/-! SUPPORT. One lemma per field per update of the state and the context. -/

namespace Sys2Proof.Machine

@[simp] theorem State.present_request (s : State) (rq : Request) : (s.present rq).request = some rq := rfl
@[simp] theorem State.present_ctx (s : State) (rq : Request) : (s.present rq).ctx = s.ctx := rfl
@[simp] theorem State.present_outcome (s : State) (rq : Request) : (s.present rq).outcome = s.outcome := rfl

@[simp] theorem State.begin_request (s : State) (rq : Request) : (s.begin rq).request = none := rfl
@[simp] theorem State.begin_ctx (s : State) (rq : Request) : (s.begin rq).ctx = some (Context.start rq.address) := rfl
@[simp] theorem State.begin_outcome (s : State) (rq : Request) : (s.begin rq).outcome = none := rfl

@[simp] theorem State.finish_request (s : State) (o : TxOutcome) : (s.finish o).request = s.request := rfl
@[simp] theorem State.finish_ctx (s : State) (o : TxOutcome) : (s.finish o).ctx = none := rfl
@[simp] theorem State.finish_outcome (s : State) (o : TxOutcome) : (s.finish o).outcome = some o := rfl

@[simp] theorem Context.start_addr (a : Word) : (Context.start a).addr = a := rfl
@[simp] theorem Context.start_page (a : Word) : (Context.start a).page = a &&& pageMask := rfl
@[simp] theorem Context.start_cur (a : Word) : (Context.start a).cur = 0 := rfl
@[simp] theorem Context.start_wflag (a : Word) : (Context.start a).wflag = false := rfl
@[simp] theorem Context.start_text (a : Word) : (Context.start a).text = [] := rfl
@[simp] theorem Context.start_ops (a : Word) : (Context.start a).ops = [] := rfl

@[simp] theorem Context.decoded_addr (c : Context) (n : Nat) (w : Option Bool) (ops : List Operand) :
    (c.decoded n w ops).addr = c.addr := rfl
@[simp] theorem Context.decoded_page (c : Context) (n : Nat) (w : Option Bool) (ops : List Operand) :
    (c.decoded n w ops).page = c.page := rfl
@[simp] theorem Context.decoded_cur (c : Context) (n : Nat) (w : Option Bool) (ops : List Operand) :
    (c.decoded n w ops).cur = c.cur + n := rfl
@[simp] theorem Context.decoded_wflag (c : Context) (n : Nat) (w : Option Bool) (ops : List Operand) :
    (c.decoded n w ops).wflag = w.getD c.wflag := rfl
@[simp] theorem Context.decoded_ops (c : Context) (n : Nat) (w : Option Bool) (ops : List Operand) :
    (c.decoded n w ops).ops = ops := rfl
@[simp] theorem Context.decoded_text (c : Context) (n : Nat) (w : Option Bool) (ops : List Operand) :
    (c.decoded n w ops).text = joinComma (ops.map Operand.text) := rfl

@[simp] theorem State.reset_request : State.reset.request = none := rfl
@[simp] theorem State.reset_ctx : State.reset.ctx = none := rfl
@[simp] theorem State.reset_outcome : State.reset.outcome = none := rfl

@[simp] theorem State.withFetchWord_ctx (s : State) (nbits w : Nat) : (s.withFetchWord nbits w).ctx = s.ctx := rfl
@[simp] theorem State.withFetchWord_outcome (s : State) (nbits w : Nat) :
    (s.withFetchWord nbits w).outcome = s.outcome := rfl

/-- Taking a transaction up leaves nothing of the state before it (R286). -/
theorem State.begin_eq (s : State) (rq : Request) : s.begin rq = ⟨none, some (Context.start rq.address), none⟩ := rfl

end Sys2Proof.Machine
end

