-- ==== Sys2Proof/Laws/Ops.lean ====
section
/-! SUPPORT. What each shared operation of a transaction can do, said once. -/

namespace Sys2Proof.Machine

/-- In a context, `complete` ends the transaction with the record of the decoded context. -/
theorem complete_of_ctx {s : State} {c : Context} (h : s.ctx = some c) (index : Nat) (op : Byte) (n : Nat)
    (w : Option Bool) (ops : Context → List Operand) :
    complete index op n w ops s = .next (s.finish (.ok
      (okResult Config.default index (romEntry index) op c (c.decoded n w (ops c))))) := by
  simp [complete, h]

/-- Without a context `complete` faults. -/
theorem complete_of_no_ctx {s : State} (h : s.ctx = none) (index : Nat) (op : Byte) (n : Nat) (w : Option Bool)
    (ops : Context → List Operand) : complete index op n w ops s = .fault .noTransaction := by
  simp [complete, h]

/-- All that `complete` can answer next. -/
theorem complete_next {s t : State} {index : Nat} {op : Byte} {n : Nat} {w : Option Bool}
    {ops : Context → List Operand} (h : complete index op n w ops s = .next t) :
    ∃ c, s.ctx = some c ∧ t = s.finish (.ok
      (okResult Config.default index (romEntry index) op c (c.decoded n w (ops c)))) := by
  cases hc : s.ctx with
  | none => simp [complete, hc] at h
  | some c =>
    rw [complete_of_ctx hc] at h
    exact ⟨c, rfl, (Host.Outcome.next.inj h).symm⟩

/-- The record of a decoded context, field by field: the length is the distance the cursor moved (R230). -/
theorem okResult_decoded (cfg : Config) (index : Nat) (d : Descriptor) (op : Byte) (c : Context) (n : Nat)
    (w : Option Bool) (ops : List Operand) :
    okResult cfg index d op c (c.decoded n w ops) =
      ⟨some index, op, d.mnemonic, d.format, w.getD c.wflag, ops, joinComma (ops.map Operand.text),
        compose cfg c.addr (w.getD c.wflag) d.mnemonic (joinComma (ops.map Operand.text)), n⟩ := by
  simp [okResult]

/-- The step with a transaction handed over. -/
theorem step_of_request {s : State} {rq : Request} (h : s.request = some rq) :
    step s = settle (decode rq.bytes) (s.begin rq) := by
  simp [step, h]

@[simp] theorem joinComma_nil : joinComma [] = [] := rfl
@[simp] theorem joinComma_one (t : Text) : joinComma [t] = t := rfl
@[simp] theorem joinComma_cons (t u : Text) (ts : List Text) :
    joinComma (t :: u :: ts) = t ++ ',' :: joinComma (u :: ts) := rfl

@[simp] theorem hex4_length (v : Word) : (hex4 v).length = 4 := rfl
@[simp] theorem hex2_length (v : Byte) : (hex2 v).length = 2 := rfl

/-- `padr` never cuts, and fills up to the width (R6). -/
theorem padr_length (t : Text) (n : Nat) : (padr t n).length = max t.length n := by
  simp [padr]; omega

/-- What the order of R56 says of two entries of the table. -/
theorem specificFirst_iff (cfg : Config) : cfg.specificFirst = true ↔
    cfg.optable.Pairwise fun d e => d.catchAll → d.overlaps e → e.catchAll := by
  simp [Config.specificFirst]

/-- What R56 asks of a ROM that construction accepts. -/
theorem romValid_order {cfg : Config} (h : cfg.romValid = true) : cfg.specificFirst = true ∧
    ∀ d ∈ cfg.optable, (d.format = .reserved ↔ d.mnemonic = "XGPL".toList) := by
  simp only [Config.romValid, Bool.and_eq_true, List.all_eq_true] at h
  exact ⟨h.1.1.1.1.2, fun d hd => by simpa [beq_iff_eq] using h.1.1.1.2 d hd⟩

/-- What R57, with R201, asks of `MOVE` in a ROM that construction accepts. -/
theorem romValid_move {cfg : Config} (h : cfg.romValid = true) :
    (∀ d ∈ cfg.optable, (d.format = .move ↔ d.mnemonic = "MOVE".toList)) ∧ ∃ op, cfg.formatOf op = some .move := by
  simp only [Config.romValid, Bool.and_eq_true, List.all_eq_true, List.any_eq_true] at h
  obtain ⟨b, -, hb⟩ := h.1.2
  exact ⟨fun d hd => by simpa [beq_iff_eq] using h.1.1.2 d hd, _, by simpa using hb⟩

/-! What the mnemonic of an `UNKNOWN` record is (log 16). -/

@[simp] theorem unknownMnemonic_none : unknownMnemonic none = [] := rfl
@[simp] theorem unknownMnemonic_some (i : Nat) (d : Descriptor) : unknownMnemonic (some (i, d)) = d.mnemonic := rfl

end Sys2Proof.Machine
end

