-- ==== Sys2Proof/Laws/Stream.lean ====
section
/-! SUPPORT. What each reader of the stream does: on the encoding of what it reads (`_encode`), and on any stream on which
it answers (`_ok`). -/

namespace Sys2Proof

theorem SrcDst.encode_length (o : SrcDst) : o.encode.length = o.size := by
  rcases o with a | ⟨v, i, off, _ | x⟩ | ⟨v, i, a, _ | x⟩ <;>
    simp [SrcDst.encode, SrcDst.size, encodeWord, indexSize]

theorem GromRef.encode_length (g : GromRef) : g.encode.length = g.size := by
  rcases g with ⟨a, _ | x⟩ <;> simp [GromRef.encode, GromRef.size, encodeWord, indexSize]

theorem Source.encode_length (s : Source) : s.encode.length = s.size := by
  cases s <;> simp [Source.encode, Source.size, encodeWord, SrcDst.encode_length]

theorem Count.encode_length (a : Count) : a.encode.length = a.size := by
  cases a <;> simp [Count.encode, Count.size, encodeWord, SrcDst.encode_length]

theorem Slot.encode_length (b : Slot) : b.encode.length = b.size := by
  cases b <;> simp [Slot.encode, Slot.size, SrcDst.encode_length, GromRef.encode_length]

theorem indexSize_le (ix : Option Byte) : indexSize ix ≤ 1 := by
  cases ix <;> simp [indexSize]

theorem SrcDst.size_bounds (o : SrcDst) : 1 ≤ o.size ∧ o.size ≤ 4 := by
  rcases o with a | ⟨v, i, off, ix⟩ | ⟨v, i, a, ix⟩
  · simp [SrcDst.size]
  all_goals
    have := indexSize_le ix
    simp only [SrcDst.size]; omega

theorem GromRef.size_bounds (g : GromRef) : 2 ≤ g.size ∧ g.size ≤ 3 := by
  have := indexSize_le g.index
  simp only [GromRef.size]; omega

theorem Source.size_bounds (s : Source) : 1 ≤ s.size ∧ s.size ≤ 4 := by
  cases s <;> simp [Source.size, SrcDst.size_bounds]

theorem Count.size_bounds (a : Count) : 1 ≤ a.size ∧ a.size ≤ 4 := by
  cases a <;> simp [Count.size, SrcDst.size_bounds]

theorem Slot.size_bounds (b : Slot) : 1 ≤ b.size ∧ b.size ≤ 4 := by
  cases b with
  | operand o => exact o.size_bounds
  | grom g => have := g.size_bounds; simp only [Slot.size]; omega

@[simp] theorem Stream.next8_cons (v : Byte) (r : List Byte) (n : Nat) :
    (Stream.mk (v :: r) n).next8 = .ok (v, ⟨r, n + 1⟩) := rfl

@[simp] theorem Stream.next8_nil (n : Nat) : (Stream.mk [] n).next8 = .error n := rfl

/-- Concatenation, as a number. -/
theorem append_toNat {n m : Nat} (x : BitVec n) (y : BitVec m) : (x ++ y).toNat = x.toNat * 2 ^ m + y.toNat := by
  rw [BitVec.toNat_append, ← Nat.shiftLeft_add_eq_or_of_lt y.isLt, Nat.shiftLeft_eq]

/-- A bit field, as a number. -/
theorem field_toNat {n : Nat} (x : BitVec n) (s l : Nat) : (x.extractLsb' s l).toNat = x.toNat / 2 ^ s % 2 ^ l := by
  rw [BitVec.extractLsb'_toNat, Nat.shiftRight_eq_div_pow]

/-- The bits of a multi-byte operand's first byte are read back as they were written (R54). -/
theorem operandHead_bits : ∀ (x v i : Bool) (n : BitVec 4),
    multiByte (operandHead x v i n) = true ∧ indexedBit (operandHead x v i n) = x ∧
    vdpBit (operandHead x v i n) = v ∧ indirectBit (operandHead x v i n) = i ∧
    offsetNibble (operandHead x v i n) = n := by decide

/-- A first byte with its top bit set is what its own bits encode (R54). -/
theorem operandHead_of_bits : ∀ hd : Byte, multiByte hd = true →
    operandHead (indexedBit hd) (vdpBit hd) (indirectBit hd) (offsetNibble hd) = hd := by decide

/-- The short form's byte is read back (R81). -/
theorem shortHead_bits : ∀ a : BitVec 7, multiByte (0#1 ++ a) = false ∧ (0#1 ++ a : Byte).extractLsb' 0 7 = a := by
  decide

/-- A first byte with its top bit clear is the short form of its low seven bits (R81). -/
theorem shortHead_of_bits : ∀ hd : Byte, multiByte hd = false → 0#1 ++ hd.extractLsb' 0 7 = hd := by decide

theorem encodeWord_append (hi lo : Byte) : encodeWord (hi ++ lo) = [hi, lo] := by
  simp only [encodeWord, List.cons.injEq, and_true]
  constructor <;> apply BitVec.eq_of_toNat_eq <;> rw [field_toNat, append_toNat] <;> omega

theorem append_of_fields (v : Word) : v.extractLsb' 8 8 ++ v.extractLsb' 0 8 = v := by
  apply BitVec.eq_of_toNat_eq
  rw [append_toNat, field_toNat, field_toNat]; omega

theorem offset_of_fields (off : BitVec 12) : off.extractLsb' 8 4 ++ off.extractLsb' 0 8 = off := by
  apply BitVec.eq_of_toNat_eq
  rw [append_toNat, field_toNat, field_toNat]; omega

theorem fields_of_offset (n : BitVec 4) (l : Byte) :
    (n ++ l).extractLsb' 8 4 = n ∧ (n ++ l).extractLsb' 0 8 = l := by
  constructor <;> apply BitVec.eq_of_toNat_eq <;> rw [field_toNat, append_toNat] <;> omega

/-- The escape is the nibble of all ones (R83). -/
theorem below_escape_iff (off : BitVec 12) :
    off.setWidth 16 < extThreshold ↔ off.extractLsb' 8 4 ≠ 0xF#4 := by
  rw [BitVec.lt_def, ne_eq, BitVec.toNat_eq, field_toNat]
  simp [extThreshold]; omega

@[simp] theorem Stream.next16_cons (hi lo : Byte) (r : List Byte) (n : Nat) :
    (Stream.mk (hi :: lo :: r) n).next16 = .ok (hi ++ lo, ⟨r, n + 2⟩) := rfl

theorem Stream.next16_encode (v : Word) (r : List Byte) (n : Nat) :
    (Stream.mk (encodeWord v ++ r) n).next16 = .ok (v, ⟨r, n + 2⟩) := by
  simp [encodeWord, append_of_fields]

theorem Stream.indexByte_encode (ix : Option Byte) (r : List Byte) (n : Nat) :
    (Stream.mk (ix.toList ++ r) n).indexByte ix.isSome = .ok (ix, ⟨r, n + indexSize ix⟩) := by
  cases ix <;> rfl

/-- The extractor reads back every well-formed operand (R54). -/
theorem Stream.srcDst_encode {o : SrcDst} (h : o.wf = true) (r : List Byte) (n : Nat) :
    (Stream.mk (o.encode ++ r) n).srcDst = .ok (o, ⟨r, n + o.size⟩) := by
  rcases o with a | ⟨v, i, off, ix⟩ | ⟨v, i, a, ix⟩
  · simp [SrcDst.encode, Stream.srcDst, shortHead_bits, SrcDst.size, bind, Except.bind, pure, Except.pure]
  · have hn : off.extractLsb' 8 4 ≠ 0xF#4 := (below_escape_iff off).1 (by simpa [SrcDst.wf] using h)
    obtain ⟨h7, h6, h5, h4, h0⟩ := operandHead_bits ix.isSome v i (off.extractLsb' 8 4)
    simp [SrcDst.encode, Stream.srcDst, h7, h6, h5, h4, h0, hn, offset_of_fields, Stream.indexByte_encode, SrcDst.size,
      bind, Except.bind, pure, Except.pure]; omega
  · obtain ⟨h7, h6, h5, h4, h0⟩ := operandHead_bits ix.isSome v i 0xF#4
    simp [SrcDst.encode, Stream.srcDst, h7, h6, h5, h4, h0, encodeWord, append_of_fields, Stream.indexByte_encode,
      SrcDst.size, bind, Except.bind, pure, Except.pure]; omega

theorem Stream.gromRef_encode (g : GromRef) (r : List Byte) (n : Nat) :
    (Stream.mk (g.encode ++ r) n).gromRef g.index.isSome = .ok (g, ⟨r, n + g.size⟩) := by
  simp [GromRef.encode, Stream.gromRef, Stream.next16_encode, Stream.indexByte_encode, GromRef.size, bind, Except.bind, pure,
    Except.pure]; omega

/-- What reading one byte can do: take the first, or fail at the end of the window. -/
theorem Stream.next8_ok {t t' : Stream} {v : Byte} (h : t.next8 = .ok (v, t')) :
    t.rest = v :: t'.rest ∧ t'.off = t.off + 1 := by
  rcases t with ⟨_ | ⟨b, r⟩, n⟩
  · simp at h
  · simp only [Stream.next8_cons, Except.ok.injEq, Prod.mk.injEq] at h
    obtain ⟨rfl, rfl⟩ := h
    exact ⟨rfl, rfl⟩

/-- Reading one byte fails only at the end of the window, at its own offset (R6). -/
theorem Stream.next8_error {t : Stream} {k : Nat} (h : t.next8 = .error k) : t.rest = [] ∧ k = t.off := by
  rcases t with ⟨_ | ⟨b, r⟩, n⟩
  · simpa [eq_comm] using h
  · simp at h

/-- A sequence that answers has answered in both parts. -/
theorem except_bind_ok {α β : Type} {x : Except Nat α} {f : α → Except Nat β} {b : β} (h : (x >>= f) = .ok b) :
    ∃ a, x = .ok a ∧ f a = .ok b := by
  cases x with
  | error e => cases h
  | ok a => exact ⟨a, rfl, h⟩

/-- A sequence that fails has failed in one of its parts. -/
theorem except_bind_error {α β : Type} {x : Except Nat α} {f : α → Except Nat β} {k : Nat} (h : (x >>= f) = .error k) :
    x = .error k ∨ ∃ a, x = .ok a ∧ f a = .error k := by
  cases x with
  | error e => left; cases h; rfl
  | ok a => exact .inr ⟨a, rfl, h⟩

theorem Stream.next16_ok {t t' : Stream} {v : Word} (h : t.next16 = .ok (v, t')) :
    t.rest = encodeWord v ++ t'.rest ∧ t'.off = t.off + 2 := by
  obtain ⟨⟨hi, t1⟩, h1, h⟩ := except_bind_ok h
  obtain ⟨⟨lo, t2⟩, h2, h⟩ := except_bind_ok h
  cases h
  obtain ⟨e1, o1⟩ := Stream.next8_ok h1
  obtain ⟨e2, o2⟩ := Stream.next8_ok h2
  exact ⟨by rw [encodeWord_append, e1, e2]; rfl, by omega⟩

theorem Stream.indexByte_ok {t t' : Stream} {b : Bool} {ix : Option Byte} (h : t.indexByte b = .ok (ix, t')) :
    ix.isSome = b ∧ t.rest = ix.toList ++ t'.rest ∧ t'.off = t.off + indexSize ix := by
  cases b with
  | false => cases h; exact ⟨rfl, rfl, rfl⟩
  | true =>
    obtain ⟨⟨x, t1⟩, h1, h⟩ := except_bind_ok h
    cases h
    obtain ⟨e1, o1⟩ := Stream.next8_ok h1
    exact ⟨rfl, e1, o1⟩

/-- All that the extractor can read: a well-formed operand, whose bytes it consumes (R54, R80). -/
theorem Stream.srcDst_ok {t t' : Stream} {o : SrcDst} (h : t.srcDst = .ok (o, t')) :
    o.wf = true ∧ t.rest = o.encode ++ t'.rest ∧ t'.off = t.off + o.size := by
  obtain ⟨⟨hd, t1⟩, h1, h⟩ := except_bind_ok h
  obtain ⟨e1, o1⟩ := Stream.next8_ok h1
  dsimp only at h
  split at h
  case isFalse h7 =>
    cases h
    refine ⟨rfl, ?_, o1⟩
    simp [SrcDst.encode, e1, shortHead_of_bits hd (by simpa using h7)]
  case isTrue h7 =>
    obtain ⟨⟨l, t2⟩, h2, h⟩ := except_bind_ok h
    obtain ⟨e2, o2⟩ := Stream.next8_ok h2
    have hh := operandHead_of_bits hd h7
    dsimp only at h
    split at h
    case isTrue hn =>
      obtain ⟨⟨e, t3⟩, h3, h⟩ := except_bind_ok h
      obtain ⟨e3, o3⟩ := Stream.next8_ok h3
      obtain ⟨⟨ix, t4⟩, h4, h⟩ := except_bind_ok h
      obtain ⟨hx, e4, o4⟩ := Stream.indexByte_ok h4
      cases h
      dsimp only at e4 o4 ⊢
      refine ⟨rfl, ?_, by simp only [SrcDst.size]; omega⟩
      rw [← hx, hn] at hh
      simp [SrcDst.encode, encodeWord_append, e1, e2, e3, e4, hh]
    case isFalse hn =>
      obtain ⟨⟨ix, t4⟩, h4, h⟩ := except_bind_ok h
      obtain ⟨hx, e4, o4⟩ := Stream.indexByte_ok h4
      cases h
      refine ⟨by simpa [SrcDst.wf, below_escape_iff, fields_of_offset] using hn, ?_, by simp only [SrcDst.size]; omega⟩
      rw [← hx] at hh
      simp [SrcDst.encode, fields_of_offset, e1, e2, e4, hh]

theorem Stream.gromRef_ok {t t' : Stream} {g : GromRef} {b : Bool} (h : t.gromRef b = .ok (g, t')) :
    g.index.isSome = b ∧ t.rest = g.encode ++ t'.rest ∧ t'.off = t.off + g.size := by
  obtain ⟨⟨a, t1⟩, h1, h⟩ := except_bind_ok h
  obtain ⟨⟨ix, t2⟩, h2, h⟩ := except_bind_ok h
  cases h
  obtain ⟨e1, o1⟩ := Stream.next16_ok h1
  obtain ⟨hx, e2, o2⟩ := Stream.indexByte_ok h2
  refine ⟨hx, ?_, by simp only [GromRef.size]; omega⟩
  simp [GromRef.encode, e1, e2]

theorem Stream.source_encode {w : Bool} {s : Source} (h : s.wf w = true) (r : List Byte) (n : Nat) :
    (Stream.mk (s.encode ++ r) n).source s.isLit w = .ok (s, ⟨r, n + s.size⟩) := by
  cases s with
  | operand o =>
    cases w <;> simp [Stream.source, Source.encode, Source.isLit, Source.size, Stream.srcDst_encode (show o.wf = true from h),
      bind, Except.bind, pure, Except.pure]
  | lit8 v =>
    obtain rfl : w = false := by simpa [Source.wf] using h
    rfl
  | lit16 v =>
    obtain rfl : w = true := by simpa [Source.wf] using h
    simp [Stream.source, Source.encode, Source.isLit, Source.size, Stream.next16_encode, bind, Except.bind, pure, Except.pure]

theorem Stream.source_ok {imm w : Bool} {t t' : Stream} {s : Source} (h : t.source imm w = .ok (s, t')) :
    s.wf w = true ∧ s.isLit = imm ∧ t.rest = s.encode ++ t'.rest ∧ t'.off = t.off + s.size := by
  cases imm with
  | false =>
    have h : (do let (o, t) ← t.srcDst; return (Source.operand o, t) : Except Nat (Source × Stream)) = .ok (s, t') := by
      cases w <;> exact h
    obtain ⟨⟨o, t1⟩, h1, h⟩ := except_bind_ok h
    cases h
    obtain ⟨hw, e, n⟩ := Stream.srcDst_ok h1
    exact ⟨hw, rfl, e, n⟩
  | true =>
    cases w with
    | false =>
      obtain ⟨⟨v, t1⟩, h1, h⟩ := except_bind_ok h
      cases h
      obtain ⟨e, n⟩ := Stream.next8_ok h1
      exact ⟨rfl, rfl, e, n⟩
    | true =>
      obtain ⟨⟨v, t1⟩, h1, h⟩ := except_bind_ok h
      cases h
      obtain ⟨e, n⟩ := Stream.next16_ok h1
      exact ⟨rfl, rfl, e, n⟩

theorem Stream.count_encode {b : Bool} {a : Count} (h : a.wf b = true) (r : List Byte) (n : Nat) :
    (Stream.mk (a.encode ++ r) n).count b = .ok (a, ⟨r, n + a.size⟩) := by
  cases a with
  | lit v =>
    obtain rfl : b = true := h
    simp [Stream.count, Count.encode, Count.size, Stream.next16_encode, bind, Except.bind, pure, Except.pure]
  | operand o =>
    obtain ⟨rfl, ho⟩ : b = false ∧ o.wf = true := by simpa [Count.wf] using h
    simp [Stream.count, Count.encode, Count.size, Stream.srcDst_encode ho, bind, Except.bind, pure, Except.pure]

theorem Stream.count_ok {b : Bool} {t t' : Stream} {a : Count} (h : t.count b = .ok (a, t')) :
    a.wf b = true ∧ t.rest = a.encode ++ t'.rest ∧ t'.off = t.off + a.size := by
  cases b with
  | true =>
    obtain ⟨⟨v, t1⟩, h1, h⟩ := except_bind_ok h
    cases h
    exact ⟨rfl, Stream.next16_ok h1⟩
  | false =>
    obtain ⟨⟨o, t1⟩, h1, h⟩ := except_bind_ok h
    cases h
    obtain ⟨hw, e, n⟩ := Stream.srcDst_ok h1
    exact ⟨by simpa [Count.wf] using hw, e, n⟩

theorem Stream.slot_encode {sel idx : Bool} {b : Slot} (h : b.wf sel idx = true) (r : List Byte) (n : Nat) :
    (Stream.mk (b.encode ++ r) n).slot sel idx = .ok (b, ⟨r, n + b.size⟩) := by
  cases b with
  | operand o =>
    obtain ⟨rfl, ho⟩ : sel = true ∧ o.wf = true := by simpa [Slot.wf] using h
    simp [Stream.slot, Slot.encode, Slot.size, Stream.srcDst_encode ho, bind, Except.bind, pure, Except.pure]
  | grom g =>
    obtain ⟨rfl, hi⟩ : sel = false ∧ g.index.isSome = idx := by simpa [Slot.wf] using h
    subst hi
    simp [Stream.slot, Slot.encode, Slot.size, Stream.gromRef_encode, bind, Except.bind, pure, Except.pure]

theorem Stream.slot_ok {sel idx : Bool} {t t' : Stream} {b : Slot} (h : t.slot sel idx = .ok (b, t')) :
    b.wf sel idx = true ∧ t.rest = b.encode ++ t'.rest ∧ t'.off = t.off + b.size := by
  cases sel with
  | true =>
    obtain ⟨⟨o, t1⟩, h1, h⟩ := except_bind_ok h
    cases h
    obtain ⟨hw, e, n⟩ := Stream.srcDst_ok h1
    exact ⟨by simpa [Slot.wf] using hw, e, n⟩
  | false =>
    obtain ⟨⟨g, t1⟩, h1, h⟩ := except_bind_ok h
    cases h
    obtain ⟨hw, e, n⟩ := Stream.gromRef_ok h1
    exact ⟨by simpa [Slot.wf] using hw, e, n⟩

end Sys2Proof
end

