-- ==== Sys2Proof/Laws/Context.lean ====
section
/-! SUPPORT. The readers of the transaction, which work on a context and a window, do what the decoder's readers do on the rest
of the window: one lemma per reader. -/

namespace Sys2Proof.Machine

/-- What a context has left to read of a window. -/
def Context.stream (c : Context) (bytes : List Byte) : Stream := ⟨bytes.drop c.cur, c.cur⟩

/-- The context with its cursor at `n`. -/
def Context.atCur (c : Context) (n : Nat) : Context := { c with cur := n }
@[simp] theorem atCur_atCur (c : Context) (n m : Nat) : (c.atCur n).atCur m = c.atCur m := rfl
@[simp] theorem stream_off (c : Context) (bytes : List Byte) : (c.stream bytes).off = c.cur := rfl
@[simp] theorem atCur_cur (c : Context) (n : Nat) : (c.atCur n).cur = n := rfl
@[simp] theorem atCur_wflag (c : Context) (n : Nat) : (c.atCur n).wflag = c.wflag := rfl

/-- A reader `f` on contexts does what the reader `g` does on the rest of the window, with its result rendered by `k`: it fails
where `g` fails, and otherwise moves the cursor where `g` stops and touches nothing else. -/
def Lifts {α β : Type} (bytes : List Byte) (f : Context → Except Nat (β × Context))
    (g : Stream → Except Nat (α × Stream)) (k : α → β) : Prop :=
  ∀ c : Context, match g (c.stream bytes) with
    | .error e => f c = .error e
    | .ok (a, t) => f c = .ok (k a, c.atCur t.off) ∧ t = (c.atCur t.off).stream bytes

/-- `Next8` (R6). -/
theorem Context.next8_lifts (bytes : List Byte) : Lifts bytes (Context.next8 bytes) Stream.next8 id := by
  intro c
  unfold Context.next8 Context.stream Stream.next8
  rcases h : bytes[c.cur]? with _ | v
  · have : bytes.drop c.cur = [] := by simpa using h
    simp [this]
  · obtain ⟨hl, rfl⟩ := List.getElem?_eq_some_iff.1 h
    rw [List.drop_eq_getElem_cons hl]; exact ⟨rfl, rfl⟩

/-- The two cases of `Lifts`, for use by `rcases`. -/
theorem Lifts.cases {α β : Type} {bytes : List Byte} {f : Context → Except Nat (β × Context)}
    {g : Stream → Except Nat (α × Stream)} {k : α → β} (h : Lifts bytes f g k) (c : Context) :
    (∃ e, g (c.stream bytes) = .error e ∧ f c = .error e) ∨
    (∃ a n, g (c.stream bytes) = .ok (a, (c.atCur n).stream bytes) ∧ f c = .ok (k a, c.atCur n)) := by
  have := h c
  rcases hg : g (c.stream bytes) with e | ⟨a, t⟩
  · rw [hg] at this; exact .inl ⟨e, rfl, this⟩
  · rw [hg] at this
    exact .inr ⟨a, t.off, by rw [← this.2], this.1⟩

/-- `(hi << 8) | lo` is concatenation (R33). -/
theorem word_or (hi lo : Byte) : (hi.setWidth 16 <<< 8) ||| lo.setWidth 16 = hi ++ lo := by
  apply BitVec.eq_of_toNat_eq
  rw [append_toNat, BitVec.toNat_or, BitVec.toNat_shiftLeft]
  have h1 := hi.isLt
  have h2 := lo.isLt
  simp only [BitVec.toNat_setWidth, Nat.shiftLeft_eq]
  rw [Nat.mod_eq_of_lt (a := hi.toNat) (by omega), Nat.mod_eq_of_lt (a := lo.toNat) (by omega),
    Nat.mod_eq_of_lt (by omega)]
  rw [← Nat.shiftLeft_eq, Nat.shiftLeft_add_eq_or_of_lt h2]

/-- `Next16` (R6). -/
theorem Context.next16_lifts (bytes : List Byte) : Lifts bytes (Context.next16 bytes) Stream.next16 id := by
  intro c
  unfold Context.next16 Stream.next16
  rcases (Context.next8_lifts bytes).cases c with ⟨e, h1, h2⟩ | ⟨a, n, h1, h2⟩
  · simp [h1, h2, bind, Except.bind]
  · rcases (Context.next8_lifts bytes).cases (c.atCur n) with ⟨e, h3, h4⟩ | ⟨b, m, h3, h4⟩
    · simp [h1, h2, h3, h4, bind, Except.bind]
    · simp only [h1, h2, h3, h4, bind, Except.bind, word_or, pure, Except.pure, id, atCur_atCur]
      exact ⟨rfl, rfl⟩

/-- The index cell and its suffix (R86). -/
theorem Context.readIndex_lifts (bytes : List Byte) (b : Bool) (t : Text) :
    Lifts bytes (Context.readIndex bytes b t) (Stream.indexByte b)
      (fun ix => (ix.map indexCell, t ++ indexText (ix.map indexCell))) := by
  intro c
  unfold Context.readIndex Stream.indexByte
  cases b with
  | false => exact ⟨by simp [indexText]; rfl, rfl⟩
  | true =>
    rcases (Context.next8_lifts bytes).cases c with ⟨e, h1, h2⟩ | ⟨a, n, h1, h2⟩
    · simp [h1, h2, bind, Except.bind]
    · simp only [h1, h2, bind, Except.bind, pure, Except.pure, id, if_true]
      refine ⟨?_, rfl⟩
      simp [indexText, indexCell]

/-- Masks 0x4000, 0x2000 and 0x1000 of `W` are bits of the operand's first byte (R54). -/
theorem head_modeBits (hd l : Byte) : (hd ++ l : Word).getLsbD 14 = indexedBit hd ∧
    (hd ++ l : Word).getLsbD 13 = vdpBit hd ∧ (hd ++ l : Word).getLsbD 12 = indirectBit hd := by
  refine ⟨?_, ?_, ?_⟩ <;> rw [BitVec.getLsbD_append] <;> rfl

/-- Bits 11 to 0 of `W` (R82). -/
theorem head_offset (hd l : Byte) : (hd ++ l : Word) &&& 0x0FFF = (offsetNibble hd ++ l).setWidth 16 := by
  apply BitVec.eq_of_getLsbD_eq
  intro i hi
  rw [BitVec.getLsbD_and, BitVec.getLsbD_setWidth, BitVec.getLsbD_append, BitVec.getLsbD_append, offsetNibble,
    BitVec.getLsbD_extractLsb']
  interval_cases i <;> simp

/-- The escape test of R83 is on the nibble alone. -/
theorem escape_iff (hd l : Byte) : extThreshold ≤ (offsetNibble hd ++ l).setWidth 16 ↔ offsetNibble hd = 0xF#4 := by
  have := below_escape_iff (offsetNibble hd ++ l)
  rw [(fields_of_offset _ _).1, ne_eq] at this
  rw [← not_iff_not, ← this, BitVec.not_le]

/-- The fold of R83 drops the nibble. -/
theorem escape_fold (hd l e : Byte) :
    ((offsetNibble hd ++ l).setWidth 16 : Word) <<< 8 ||| e.setWidth 16 = l ++ e := by
  apply BitVec.eq_of_toNat_eq
  rw [append_toNat, BitVec.toNat_or, BitVec.toNat_shiftLeft]
  have h1 := l.isLt
  have h2 := e.isLt
  have h3 := (offsetNibble hd).isLt
  simp only [BitVec.toNat_setWidth, Nat.shiftLeft_eq, append_toNat]
  have : ((offsetNibble hd).toNat * 2 ^ 8 + l.toNat) % 2 ^ 16 * 2 ^ 8 % 2 ^ 16 = l.toNat * 2 ^ 8 := by omega
  rw [this, Nat.mod_eq_of_lt (a := e.toNat) (by omega)]
  rw [← Nat.shiftLeft_eq, Nat.shiftLeft_add_eq_or_of_lt h2]

theorem short_address : ∀ hd : Byte, multiByte hd = false →
    scratchBase + hd.setWidth 16 = scratchBase + (hd.extractLsb' 0 7).setWidth 16 := by decide +kernel

theorem effectiveAddr_eq (v i : Bool) (r : Word) :
    (if v = true then (if i = true then r + scratchBase else r) else r + scratchBase) = effectiveAddr v i r := by
  cases v <;> cases i <;> simp [effectiveAddr]

/-- The text as the extractor builds it, without the index suffix. -/
def extractedText (v i : Bool) (a : Word) : Text :=
  (if v = true then "V".toList else []) ++ (if i = true then "*".toList else "@".toList) ++ ">".toList ++ hex4 a

theorem extractedText_fold (v i : Bool) (a : Word) :
    (if v = true then "V".toList else []) ++ (if i = true then "*".toList else "@".toList) ++ ">".toList ++ hex4 a =
      extractedText v i a := rfl

theorem extractedText_eq (v i : Bool) (a : Word) (ix : Option Word) :
    extractedText v i a ++ indexText ix = spaceText (spaceOf v) ++ indirectText i ++ ['>'] ++ hex4 a ++ indexText ix := by
  cases v <;> cases i <;> simp [extractedText, spaceText, spaceOf, indirectText]

/-- `SrcDst` (R80): it reads the operand that the decoder reads, and renders it. -/
theorem Context.srcDst_lifts (bytes : List Byte) :
    Lifts bytes (Context.srcDst bytes) Stream.srcDst (fun o => (o.operand, o.operand.text)) := by
  intro c
  unfold Context.srcDst Stream.srcDst
  rcases (Context.next8_lifts bytes).cases c with ⟨e, h1, h2⟩ | ⟨hd, n, h1, h2⟩
  · simp [h1, h2, bind, Except.bind]
  rcases h7 : multiByte hd with _ | _
  · have h7' : hd.getLsbD 7 = false := h7
    simp only [h1, h2, bind, Except.bind, id, h7', h7, if_true, pure, Except.pure,
      Bool.false_eq_true, if_false, SrcDst.operand, short_address hd h7]
    exact ⟨rfl, rfl⟩
  have h7' : hd.getLsbD 7 = true := h7
  rcases (Context.next8_lifts bytes).cases (c.atCur n) with ⟨e, h3, h4⟩ | ⟨l, m, h3, h4⟩
  · simp only [h1, h2, h3, h4, bind, Except.bind, id, h7, h7', Bool.true_eq_false, if_false, if_true]
  obtain ⟨b1, b2, b3⟩ := head_modeBits hd l
  by_cases hn : offsetNibble hd = 0xF#4
  · have hesc := (escape_iff hd l).2 hn
    rcases (Context.next8_lifts bytes).cases (c.atCur m) with ⟨e, h5, h6⟩ | ⟨lo, k, h5, h6⟩
    · simp only [h1, h2, h3, h4, h5, h6, bind, Except.bind, id, atCur_atCur, h7, h7',
        Bool.true_eq_false, if_false, if_true, word_or, head_offset, Context.readEscape, if_pos hesc, if_pos hn]
    · simp only [h1, h2, h3, h4, h5, h6, bind, Except.bind, id, atCur_atCur, h7, h7',
        Bool.true_eq_false, if_false, if_true, word_or, head_offset, Context.readEscape, if_pos hesc, if_pos hn,
        pure, Except.pure, escape_fold, b1, b2, b3, effectiveAddr_eq,
        extractedText_fold]
      rcases (Context.readIndex_lifts bytes (indexedBit hd) (extractedText (vdpBit hd) (indirectBit hd)
      (effectiveAddr (vdpBit hd) (indirectBit hd) (l ++ lo)))).cases (c.atCur k) with
      ⟨e, h8, h9⟩ | ⟨ix, k', h8, h9⟩
      · simp only [h8, h9]
      · simp only [h8, h9]
        refine ⟨?_, rfl⟩
        rw [extractedText_eq]; rfl
  · have hesc := mt (escape_iff hd l).1 hn
    simp only [h1, h2, h3, h4, bind, Except.bind, id, atCur_atCur, h7, h7',
        Bool.true_eq_false, if_false, if_true, word_or, head_offset, Context.readEscape, if_neg hesc, if_neg hn,
        pure, Except.pure, b1, b2, b3, effectiveAddr_eq,
        extractedText_fold]
    rcases (Context.readIndex_lifts bytes (indexedBit hd) (extractedText (vdpBit hd) (indirectBit hd)
      (effectiveAddr (vdpBit hd) (indirectBit hd) ((offsetNibble hd ++ l).setWidth 16)))).cases (c.atCur m) with
      ⟨e, h8, h9⟩ | ⟨ix, k', h8, h9⟩
    · simp only [h8, h9]
    · simp only [h8, h9]
      refine ⟨?_, rfl⟩
      rw [extractedText_eq]; rfl

/-- `GromOperand` (R88). -/
theorem Context.gromOperand_lifts (bytes : List Byte) (sel idx : Bool) :
    Lifts bytes (fun c => c.gromOperand bytes sel idx) (Stream.slot sel idx) (fun o => (o.operandOf, o.operandOf.text)) := by
  intro c
  unfold Context.gromOperand Stream.slot Stream.gromRef
  cases sel with
  | true =>
    rcases (Context.srcDst_lifts bytes).cases c with ⟨e, h1, h2⟩ | ⟨a, n, h1, h2⟩
    · simp [h1, h2, bind, Except.bind]
    · simp only [h1, h2, bind, Except.bind, if_true, pure, Except.pure]
      exact ⟨rfl, rfl⟩
  | false =>
    rcases (Context.next16_lifts bytes).cases c with ⟨e, h1, h2⟩ | ⟨a, n, h1, h2⟩
    · simp [h1, h2, bind, Except.bind]
    · rcases (Context.readIndex_lifts bytes idx ("G@>".toList ++ hex4 a)).cases (c.atCur n) with
      ⟨e, h8, h9⟩ | ⟨ix, k', h8, h9⟩
      · simp only [h1, h2, h8, h9, bind, Except.bind, id, Bool.false_eq_true, if_false]
      · simp only [h1, h2, h8, h9, bind, Except.bind, id, atCur_atCur, Bool.false_eq_true, if_false, pure, Except.pure]
        exact ⟨rfl, rfl⟩

/-- The source of format 1, sized by the context's width flag (R110). -/
theorem formatSource_lifts (bytes : List Byte) (imm w : Bool) (c : Context) (hw : c.wflag = w) :
    match Stream.source imm w (c.stream bytes) with
    | .error e => formatSource bytes imm c = .error e
    | .ok (a, t) => formatSource bytes imm c = .ok ((a.operandOf, a.operandOf.text), c.atCur t.off) ∧
        t = (c.atCur t.off).stream bytes := by
  subst hw
  unfold formatSource Stream.source
  cases imm with
  | false =>
    rcases (Context.srcDst_lifts bytes).cases c with ⟨e, h1, h2⟩ | ⟨a, n, h1, h2⟩
    · simp [h1, h2, bind, Except.bind]
    · simp only [h1, h2, bind, Except.bind, Bool.false_eq_true, if_false, pure, Except.pure]
      exact ⟨rfl, rfl⟩
  | true =>
    cases h : c.wflag with
    | true =>
      rcases (Context.next16_lifts bytes).cases c with ⟨e, h1, h2⟩ | ⟨a, n, h1, h2⟩
      · simp [h1, h2, bind, Except.bind]
      · simp only [h1, h2, bind, Except.bind, if_true, pure, Except.pure]
        exact ⟨rfl, rfl⟩
    | false =>
      rcases (Context.next8_lifts bytes).cases c with ⟨e, h1, h2⟩ | ⟨a, n, h1, h2⟩
      · simp [h1, h2, bind, Except.bind]
      · simp only [h1, h2, bind, Except.bind, if_true, pure, Except.pure, Bool.false_eq_true, if_false]
        exact ⟨rfl, rfl⟩

/-- Slot (a) of MOVE (R202). -/
theorem formatCount_lifts (bytes : List Byte) (b : Bool) :
    Lifts bytes (formatCount bytes b) (Stream.count b) (fun o => (o.operandOf, o.operandOf.text)) := by
  intro c
  unfold formatCount Stream.count
  cases b with
  | false =>
    rcases (Context.srcDst_lifts bytes).cases c with ⟨e, h1, h2⟩ | ⟨a, n, h1, h2⟩
    · simp [h1, h2, bind, Except.bind]
    · simp only [h1, h2, bind, Except.bind, Bool.false_eq_true, if_false, pure, Except.pure]
      exact ⟨rfl, rfl⟩
  | true =>
      rcases (Context.next16_lifts bytes).cases c with ⟨e, h1, h2⟩ | ⟨a, n, h1, h2⟩
      · simp [h1, h2, bind, Except.bind]
      · simp only [h1, h2, bind, Except.bind, if_true, pure, Except.pure]
        exact ⟨rfl, rfl⟩

end Sys2Proof.Machine
end

