-- ==== Sys2Proof/Laws/Exec.lean ====
section
/-! SUPPORT. The shape of every instruction's meaning, said once. -/

namespace Sys2Proof.Machine

/-- Every meaning is `complete` for one ROM entry: the number of operands of that entry's format, the width flag written only
by formats 1 and 5, the length of the encoding. -/
theorem exec_complete (i : Instr) : ∃ (k : Nat) (op : Byte) (n : Nat) (w : Option Bool) (ops : Context → List Operand),
    (∀ s, exec i s = complete k op n w ops s) ∧ (∀ c, (ops c).length = arity (romEntry k).format) ∧
    (writesWidth (romEntry k).format = false → w = none) ∧ n = (encode i).length := by
  cases i <;> exact ⟨_, _, _, _, _, fun s => rfl, fun _ => rfl,
    (fun h => by first | rfl | exact absurd h (by decide)),
    (by first
      | rfl
      | (simp [encode, encodeOne, encodeTwo, SrcDst.encode_length, Source.encode_length, Count.encode_length,
          Slot.encode_length]; omega))⟩

end Sys2Proof.Machine
end

