-- ==== Sys2Proof/Laws/PerInstr.lean ====
section
/-! SUPPORT. Statements about every instruction as syntax, one lemma per constructor. -/

namespace Sys2Proof.Laws.EncodedLength

/-- An instruction is one opcode byte and 0 to 12 further bytes (30_encoding.md R50, R52). -/
def Statement (i : Instr) : Prop := 1 ≤ (encode i).length ∧ (encode i).length ≤ maxLen

theorem ofTwo (base : Byte) (w : Bool) (d : SrcDst) (s : Source) :
    1 ≤ (encodeTwo base w d s).length ∧ (encodeTwo base w d s).length ≤ maxLen := by
  have hd := d.size_bounds
  have hs := s.size_bounds
  simp only [encodeTwo, List.length_cons, List.length_append, SrcDst.encode_length, Source.encode_length, maxLen]
  omega

theorem ofOne (base : Byte) (w : Bool) (o : SrcDst) :
    1 ≤ (encodeOne base w o).length ∧ (encodeOne base w o).length ≤ maxLen := by
  have ho := o.size_bounds
  simp only [encodeOne, List.length_cons, SrcDst.encode_length, maxLen]
  omega

theorem rtn : Statement .rtn := by simp [Statement, encode, maxLen]
theorem rtnc : Statement .rtnc := by simp [Statement, encode, maxLen]
theorem rand (v) : Statement (.rand v) := by simp [Statement, encode, maxLen]
theorem scan : Statement .scan := by simp [Statement, encode, maxLen]
theorem back (v) : Statement (.back v) := by simp [Statement, encode, maxLen]
theorem b (v) : Statement (.b v) := by simp [Statement, encode, encodeWord, maxLen]
theorem call (v) : Statement (.call v) := by simp [Statement, encode, encodeWord, maxLen]
theorem all (v) : Statement (.all v) := by simp [Statement, encode, maxLen]
theorem fmt : Statement .fmt := by simp [Statement, encode, maxLen]
theorem h : Statement .h := by simp [Statement, encode, maxLen]
theorem gt : Statement .gt := by simp [Statement, encode, maxLen]
theorem exit : Statement .exit := by simp [Statement, encode, maxLen]
theorem carry : Statement .carry := by simp [Statement, encode, maxLen]
theorem ovf : Statement .ovf := by simp [Statement, encode, maxLen]
theorem parse (v) : Statement (.parse v) := by simp [Statement, encode, maxLen]
theorem xml (v) : Statement (.xml v) := by simp [Statement, encode, maxLen]
theorem cont : Statement .cont := by simp [Statement, encode, maxLen]
theorem exec : Statement .exec := by simp [Statement, encode, maxLen]
theorem rtnb : Statement .rtnb := by simp [Statement, encode, maxLen]
theorem rtgr : Statement .rtgr := by simp [Statement, encode, maxLen]
theorem xgpl14 (x) : Statement (.xgpl14 x) := by simp [Statement, encode, maxLen]
theorem xgpl18 (x) : Statement (.xgpl18 x) := by simp [Statement, encode, maxLen]
theorem move (mode : BitVec 5) (sa : Count) (sb sc : Slot) : Statement (.move mode sa sb sc) := by
  have ha := sa.size_bounds
  have hb := sb.size_bounds
  have hc := sc.size_bounds
  simp only [Statement, encode, List.length_cons, List.length_append, Count.encode_length, Slot.encode_length, maxLen]
  omega
theorem br (disp) : Statement (.br disp) := by simp [Statement, encode, encodeBranch, maxLen]
theorem bs (disp) : Statement (.bs disp) := by simp [Statement, encode, encodeBranch, maxLen]
theorem abs (w : Bool) (o : SrcDst) : Statement (.abs w o) := ofOne _ _ _
theorem neg (w : Bool) (o : SrcDst) : Statement (.neg w o) := ofOne _ _ _
theorem inv (w : Bool) (o : SrcDst) : Statement (.inv w o) := ofOne _ _ _
theorem clr (w : Bool) (o : SrcDst) : Statement (.clr w o) := ofOne _ _ _
theorem fetch (w : Bool) (o : SrcDst) : Statement (.fetch w o) := ofOne _ _ _
theorem case (w : Bool) (o : SrcDst) : Statement (.case w o) := ofOne _ _ _
theorem push (w : Bool) (o : SrcDst) : Statement (.push w o) := ofOne _ _ _
theorem cz (w : Bool) (o : SrcDst) : Statement (.cz w o) := ofOne _ _ _
theorem inc (w : Bool) (o : SrcDst) : Statement (.inc w o) := ofOne _ _ _
theorem dec (w : Bool) (o : SrcDst) : Statement (.dec w o) := ofOne _ _ _
theorem inct (w : Bool) (o : SrcDst) : Statement (.inct w o) := ofOne _ _ _
theorem dect (w : Bool) (o : SrcDst) : Statement (.dect w o) := ofOne _ _ _
theorem xgpl98 (x) : Statement (.xgpl98 x) := by simp [Statement, encode, maxLen]
theorem add (w : Bool) (dst : SrcDst) (source : Source) : Statement (.add w dst source) := ofTwo _ _ _ _
theorem sub (w : Bool) (dst : SrcDst) (source : Source) : Statement (.sub w dst source) := ofTwo _ _ _ _
theorem mul (w : Bool) (dst : SrcDst) (source : Source) : Statement (.mul w dst source) := ofTwo _ _ _ _
theorem div (w : Bool) (dst : SrcDst) (source : Source) : Statement (.div w dst source) := ofTwo _ _ _ _
theorem and (w : Bool) (dst : SrcDst) (source : Source) : Statement (.and w dst source) := ofTwo _ _ _ _
theorem or (w : Bool) (dst : SrcDst) (source : Source) : Statement (.or w dst source) := ofTwo _ _ _ _
theorem xor (w : Bool) (dst : SrcDst) (source : Source) : Statement (.xor w dst source) := ofTwo _ _ _ _
theorem st (w : Bool) (dst : SrcDst) (source : Source) : Statement (.st w dst source) := ofTwo _ _ _ _
theorem ex (w : Bool) (dst : SrcDst) (source : Source) : Statement (.ex w dst source) := ofTwo _ _ _ _
theorem ch (w : Bool) (dst : SrcDst) (source : Source) : Statement (.ch w dst source) := ofTwo _ _ _ _
theorem che (w : Bool) (dst : SrcDst) (source : Source) : Statement (.che w dst source) := ofTwo _ _ _ _
theorem cgt (w : Bool) (dst : SrcDst) (source : Source) : Statement (.cgt w dst source) := ofTwo _ _ _ _
theorem cge (w : Bool) (dst : SrcDst) (source : Source) : Statement (.cge w dst source) := ofTwo _ _ _ _
theorem ceq (w : Bool) (dst : SrcDst) (source : Source) : Statement (.ceq w dst source) := ofTwo _ _ _ _
theorem clog (w : Bool) (dst : SrcDst) (source : Source) : Statement (.clog w dst source) := ofTwo _ _ _ _
theorem sra (w : Bool) (dst : SrcDst) (source : Source) : Statement (.sra w dst source) := ofTwo _ _ _ _
theorem sll (w : Bool) (dst : SrcDst) (source : Source) : Statement (.sll w dst source) := ofTwo _ _ _ _
theorem srl (w : Bool) (dst : SrcDst) (source : Source) : Statement (.srl w dst source) := ofTwo _ _ _ _
theorem src (w : Bool) (dst : SrcDst) (source : Source) : Statement (.src w dst source) := ofTwo _ _ _ _
theorem coinc (w : Bool) (dst : SrcDst) (source : Source) : Statement (.coinc w dst source) := ofTwo _ _ _ _
theorem xgplF0 (x) : Statement (.xgplF0 x) := by simp [Statement, encode, maxLen]
theorem io (w : Bool) (dst : SrcDst) (source : Source) : Statement (.io w dst source) := ofTwo _ _ _ _
theorem swgr (w : Bool) (dst : SrcDst) (source : Source) : Statement (.swgr w dst source) := ofTwo _ _ _ _
theorem xgplFC (x) : Statement (.xgplFC x) := by simp [Statement, encode, maxLen]

end Sys2Proof.Laws.EncodedLength
end

