-- ==== Sys2Proof/Laws/Window.lean ====
section
/-! SUPPORT. What every reader of the stream does with its window, closed under reading one thing after another. -/

namespace Sys2Proof

/-- A reader fails only at the end of the window, and where it answers it has used a first part of the window, the same
whatever follows that part (R32, R252). -/
def Honest {α : Type} (g : Stream → Except Nat (α × Stream)) : Prop :=
  ∀ t, match g t with
    | .error k => k = t.off + t.rest.length
    | .ok (a, t') => ∃ used, t.rest = used ++ t'.rest ∧ t'.off = t.off + used.length ∧
        ∀ r, g ⟨used ++ r, t.off⟩ = .ok (a, ⟨r, t'.off⟩)

theorem Honest.pure {α : Type} (a : α) : Honest (fun t => .ok (a, t)) := fun _ => ⟨[], rfl, rfl, fun _ => rfl⟩

theorem Honest.next8 : Honest Stream.next8 := by
  rintro ⟨_ | ⟨v, r⟩, n⟩
  · rfl
  · exact ⟨[v], rfl, rfl, fun _ => rfl⟩

/-- Reading one thing after another keeps the property. -/
theorem Honest.bind {α β : Type} {g : Stream → Except Nat (α × Stream)} {h : α → Stream → Except Nat (β × Stream)}
    (hg : Honest g) (hh : ∀ a, Honest (h a)) : Honest (fun t => g t >>= fun p => h p.1 p.2) := by
  intro t
  have h1 := hg t
  rcases e1 : g t with e | ⟨a, t1⟩ <;> rw [e1] at h1 <;> simp only [Bind.bind, Except.bind, e1]
  · exact h1
  · obtain ⟨u, e2, e3, e4⟩ := h1
    have h2 := hh a t1
    rcases e5 : h a t1 with e | ⟨b, t2⟩ <;> rw [e5] at h2 <;> simp only at h2 ⊢
    · rw [h2, e3, e2, List.length_append]; omega
    · obtain ⟨u2, e6, e7, e8⟩ := h2
      refine ⟨u ++ u2, by rw [e2, e6, List.append_assoc], by rw [e7, e3, List.length_append]; omega, fun r => ?_⟩
      rw [List.append_assoc, e4]
      exact e8 r

theorem Honest.next16 : Honest Stream.next16 := Honest.bind .next8 fun _ => Honest.bind .next8 fun _ => Honest.pure _

theorem Honest.indexByte (b : Bool) : Honest (Stream.indexByte b) := by
  cases b
  · exact Honest.pure _
  · exact Honest.bind .next8 fun _ => Honest.pure _
/-- What `Stream.srcDst` does after the second byte. -/
def afterSecond (hd l : Byte) (t : Stream) : Except Nat (SrcDst × Stream) :=
  if offsetNibble hd = 0xF#4 then
    t.next8 >>= fun p => p.2.indexByte (indexedBit hd) >>= fun q =>
      .ok (SrcDst.far (vdpBit hd) (indirectBit hd) (l ++ p.1) q.1, q.2)
  else
    t.indexByte (indexedBit hd) >>= fun q =>
      .ok (SrcDst.near (vdpBit hd) (indirectBit hd) (offsetNibble hd ++ l) q.1, q.2)

/-- What `Stream.srcDst` does after the first byte. -/
def afterFirst (hd : Byte) (t : Stream) : Except Nat (SrcDst × Stream) :=
  if multiByte hd then t.next8 >>= fun p => afterSecond hd p.1 p.2 else .ok (SrcDst.short (hd.extractLsb' 0 7), t)

theorem srcDst_after : Stream.srcDst = fun t => t.next8 >>= fun p => afterFirst p.1 p.2 := rfl

theorem Honest.afterSecond (hd l : Byte) : Honest (afterSecond hd l) := by
  unfold Sys2Proof.afterSecond
  by_cases hn : offsetNibble hd = 0xF#4
  · simp only [hn, if_true]
    exact Honest.bind
      (h := fun e t => t.indexByte (indexedBit hd) >>= fun p =>
        .ok (SrcDst.far (vdpBit hd) (indirectBit hd) (l ++ e) p.1, p.2)) .next8 fun e =>
      Honest.bind (h := fun ix t => .ok (SrcDst.far (vdpBit hd) (indirectBit hd) (l ++ e) ix, t)) (.indexByte _) fun _ =>
        Honest.pure _
  · simp only [hn, if_false]
    exact Honest.bind
      (h := fun ix t => .ok (SrcDst.near (vdpBit hd) (indirectBit hd) (offsetNibble hd ++ l) ix, t)) (.indexByte _)
      fun _ => Honest.pure _

theorem Honest.afterFirst (hd : Byte) : Honest (afterFirst hd) := by
  unfold Sys2Proof.afterFirst
  cases h : multiByte hd
  · simp only [Bool.false_eq_true, if_false]; exact Honest.pure _
  · simp only [if_true]; exact Honest.bind (h := Sys2Proof.afterSecond hd) .next8 (.afterSecond hd)

theorem Honest.srcDst : Honest Stream.srcDst := by
  rw [srcDst_after]; exact Honest.bind (h := Sys2Proof.afterFirst) .next8 .afterFirst

theorem Honest.gromRef (b : Bool) : Honest (Stream.gromRef b) := Honest.bind .next16 fun _ => Honest.bind (.indexByte _) fun _ => Honest.pure _

theorem Honest.source (i w : Bool) : Honest (Stream.source i w) := by
  cases i
  · have : Honest (fun t => do let (o, t) ← Stream.srcDst t; return (Source.operand o, t)) := Honest.bind .srcDst fun _ => Honest.pure _
    cases w <;> exact this
  · cases w
    · exact Honest.bind .next8 fun _ => Honest.pure _
    · exact Honest.bind .next16 fun _ => Honest.pure _

theorem Honest.count (i : Bool) : Honest (Stream.count i) := by
  cases i
  · exact Honest.bind .srcDst fun _ => Honest.pure _
  · exact Honest.bind .next16 fun _ => Honest.pure _

theorem Honest.slot (i b : Bool) : Honest (Stream.slot i b) := by
  cases i
  · exact Honest.bind (.gromRef _) fun _ => Honest.pure _
  · exact Honest.bind .srcDst fun _ => Honest.pure _

/-- A proper first part of what a reader uses makes it fail at that part's end (R238). -/
theorem Honest.take {α : Type} {g : Stream → Except Nat (α × Stream)} (hg : Honest g) {used : List Byte} {n n' : Nat}
    {a : α} (h : g ⟨used, n⟩ = .ok (a, ⟨[], n'⟩)) {m : Nat} (hm : m < used.length) :
    g ⟨used.take m, n⟩ = .error (n + m) := by
  have h1 := hg ⟨used.take m, n⟩
  rcases e1 : g ⟨used.take m, n⟩ with e | ⟨a', t'⟩ <;> rw [e1] at h1 <;> simp only at h1
  · rw [h1, List.length_take]; congr 2; omega
  · obtain ⟨u, e2, e3, e4⟩ := h1
    have := e4 (t'.rest ++ used.drop m)
    rw [← List.append_assoc, ← e2, List.take_append_drop, h] at this
    simp at this
    omega

end Sys2Proof
end

