-- ==== Sys2Proof/Tests/Slice0.lean ====
section
/-! SUPPORT. Tests. Expected results come from the spec's vectors (95_test_vectors.md: ids V…, P…) and the worked examples of
the rule files, never from the model; ends with a witness for the hypotheses of each obligation. -/

namespace Sys2Proof.Machine

-- One theorem after the other: run side by side, the kernel evaluations below hold more threads than the check's memory allows.
set_option Elab.async false

/-! ### Ill-formed terms, one for each check of WellFormed -/

theorem test_wf_offset_at_escape_refused : (SrcDst.near false false 0xF00 none).wf = false := by decide
theorem test_wf_offset_below_escape_kept : (SrcDst.near false false 0xEFF none).wf = true := by decide
theorem test_wf_byte_literal_of_word_refused : (Source.lit8 0x05).wf true = false := by decide
theorem test_wf_word_literal_of_byte_refused : (Source.lit16 0x0005).wf false = false := by decide
theorem test_wf_literal_count_refused : (Count.lit 0x0020).wf false = false := by decide
theorem test_wf_operand_count_refused : (Count.operand (.short 0)).wf true = false := by decide
theorem test_wf_operand_slot_refused : (Slot.operand (.short 0)).wf false false = false := by decide
theorem test_wf_grom_slot_refused : (Slot.grom ⟨0x1234, none⟩).wf true false = false := by decide
theorem test_wf_grom_index_refused : (Slot.grom ⟨0x1234, none⟩).wf false true = false ∧
    (Slot.grom ⟨0x1234, some 0⟩).wf false false = false := by decide
theorem test_wf_move_refused : (Instr.move 0b00000 (.lit 1) (.grom ⟨0, none⟩) (.grom ⟨0, none⟩)).wf = false ∧
    (Instr.move 0b00000 (.operand (.short 1)) (.operand (.short 0)) (.grom ⟨0, none⟩)).wf = false ∧
    (Instr.move 0b00000 (.operand (.short 1)) (.grom ⟨0, none⟩) (.operand (.short 0))).wf = false := by decide
theorem test_wf_instr_refused : (Instr.clr false (.near false false 0xFFF none)).wf = false ∧
    (Instr.add true (.short 0) (.lit8 0)).wf = false ∧
    (Instr.add false (.near false false 0xF00 none) (.operand (.short 0))).wf = false := by decide

/-! ### Decoding: words written from the encodings, one for each constructor -/

/-- Formats 0, 3 and 7 (R101 to R104, R151 to R162, R221). -/
theorem test_decode_no_operand : ∀ e ∈ ([(0x00, .rtn), (0x01, .rtnc), (0x03, .scan), (0x08, .fmt), (0x09, .h), (0x0A, .gt),
    (0x0B, .exit), (0x0C, .carry), (0x0D, .ovf), (0x10, .cont), (0x11, .exec), (0x12, .rtnb), (0x13, .rtgr),
    (0x14, .xgpl14 0), (0x17, .xgpl14 3), (0x18, .xgpl18 0), (0x1F, .xgpl18 7), (0x99, .xgpl98 1), (0xF3, .xgplF0 3),
    (0xFF, .xgplFC 3)] : List (Byte × Instr)), decode [e.1] = .instr e.2 1 := by decide +kernel

/-- Format 2 (R142 to R148). -/
theorem test_decode_literal : ∀ e ∈ ([([0x02, 0xFF], .rand 0xFF), ([0x04, 0x2A], .back 0x2A), ([0x05, 0x12, 0x34], .b 0x1234),
    ([0x06, 0x60, 0x10], .call 0x6010), ([0x07, 0x20], .all 0x20), ([0x0E, 0x80], .parse 0x80),
    ([0x0F, 0xF0], .xml 0xF0)] : List (List Byte × Instr)), decode e.1 = .instr e.2 e.1.length := by decide +kernel

/-- Format 4 (R171, R172). -/
theorem test_decode_branch : decode [0x5F, 0xFF] = .instr (.br 0x1FFF) 2 ∧ decode [0x6A, 0xBC] = .instr (.bs 0x0ABC) 2 := by
  decide +kernel

/-- Format 5: the worked examples of R181 to R192. -/
theorem test_decode_oneOperand : ∀ e ∈ ([([0x80, 0x7F], .abs false (.short 0x7F)),
    ([0x83, 0x80, 0x80], .neg true (.near false false 0x080 none)), ([0x84, 0x90, 0x10], .inv false (.near false true 0x010 none)),
    ([0x87, 0x74], .clr true (.short 0x74)), ([0x88, 0x8E, 0xFF], .fetch false (.near false false 0xEFF none)),
    ([0x8B, 0x5C], .case true (.short 0x5C)), ([0x8C, 0xA1, 0x00], .push false (.near true false 0x100 none)),
    ([0x8F, 0xB0, 0x4A], .cz true (.near true true 0x04A none)),
    ([0x90, 0xC0, 0x10, 0x20], .inc false (.near false false 0x010 (some 0x20))),
    ([0x93, 0x8F, 0x7D, 0x00], .dec true (.far false false 0x7D00 none)),
    ([0x94, 0xEF, 0x40, 0x00, 0x02], .inct false (.far true false 0x4000 (some 0x02))),
    ([0x97, 0x00], .dect true (.short 0))] : List (List Byte × Instr)), decode e.1 = .instr e.2 e.1.length := by decide +kernel

/-- Format 1: the worked examples of R111 to R121. -/
theorem test_decode_twoOperand_low : ∀ e ∈ ([([0xA0, 0x10, 0x20], .add false (.short 0x10) (.operand (.short 0x20))),
    ([0xA7, 0x74, 0x12, 0x31], .sub true (.short 0x74) (.lit16 0x1231)),
    ([0xA9, 0xA1, 0x00, 0x4A], .mul true (.near true false 0x100 none) (.operand (.short 0x4A))),
    ([0xAF, 0x90, 0x10, 0x12, 0x33], .div true (.near false true 0x010 none) (.lit16 0x1233)),
    ([0xB0, 0x8F, 0x10, 0x00, 0x00], .and false (.far false false 0x1000 none) (.operand (.short 0x00))),
    ([0xB7, 0xC0, 0x10, 0x20, 0x12, 0x35], .or true (.near false false 0x010 (some 0x20)) (.lit16 0x1235)),
    ([0xB9, 0xB0, 0x4A, 0x7F], .xor true (.near true true 0x04A none) (.operand (.short 0x7F))),
    ([0xBF, 0x5C, 0x12, 0x37], .st true (.short 0x5C) (.lit16 0x1237)),
    ([0xC0, 0xAF, 0x12, 0x34, 0x80, 0x80], .ex false (.far true false 0x1234 none) (.operand (.near false false 0x080 none))),
    ([0xC7, 0x00, 0x12, 0x39], .ch true (.short 0x00) (.lit16 0x1239)),
    ([0xC9, 0xE3, 0x00, 0x05, 0x01], .che true (.near true false 0x300 (some 0x05)) (.operand (.short 0x01)))] :
    List (List Byte × Instr)), decode e.1 = .instr e.2 e.1.length := by decide +kernel

/-- Format 1: the worked examples of R122 to R132. -/
theorem test_decode_twoOperand_high : ∀ e ∈ ([([0xCD, 0x10, 0x20], .cgt true (.short 0x10) (.operand (.short 0x20))),
    ([0xD2, 0x74, 0x11], .cge false (.short 0x74) (.lit8 0x11)),
    ([0xD4, 0xA1, 0x00, 0x4A], .ceq false (.near true false 0x100 none) (.operand (.short 0x4A))),
    ([0xDA, 0x90, 0x10, 0x13], .clog false (.near false true 0x010 none) (.lit8 0x13)),
    ([0xDD, 0x8F, 0x10, 0x00, 0x00], .sra true (.far false false 0x1000 none) (.operand (.short 0x00))),
    ([0xE2, 0xC0, 0x10, 0x20, 0x15], .sll false (.near false false 0x010 (some 0x20)) (.lit8 0x15)),
    ([0xE4, 0xB0, 0x4A, 0x7F], .srl false (.near true true 0x04A none) (.operand (.short 0x7F))),
    ([0xEA, 0x5C, 0x17], .src false (.short 0x5C) (.lit8 0x17)),
    ([0xED, 0xAF, 0x12, 0x34, 0x80, 0x80], .coinc true (.far true false 0x1234 none) (.operand (.near false false 0x080 none))),
    ([0xF6, 0x00, 0x19], .io false (.short 0x00) (.lit8 0x19)),
    ([0xF8, 0xE3, 0x00, 0x05, 0x01], .swgr false (.near true false 0x300 (some 0x05)) (.operand (.short 0x01)))] :
    List (List Byte × Instr)), decode e.1 = .instr e.2 e.1.length := by decide +kernel

/-- Format 6: V6.8, V6.9, V6.14. -/
theorem test_decode_move : ∀ e ∈ ([([0x31, 0x00, 0x20, 0xA1, 0x00, 0x12, 0x34],
      .move 0b10001 (.lit 0x0020) (.operand (.near true false 0x100 none)) (.grom ⟨0x1234, none⟩)),
    ([0x35, 0x01, 0x00, 0x8F, 0x10, 0x00, 0x60, 0x00, 0x7E],
      .move 0b10101 (.lit 0x0100) (.operand (.far false false 0x1000 none)) (.grom ⟨0x6000, some 0x7E⟩)),
    ([0x3C, 0xFF, 0xFF, 0xFF, 0xFF, 0xFF, 0xFF, 0xFF, 0xFF, 0xFF, 0xFF, 0xFF, 0xFF],
      .move 0b11100 (.operand (.far true true 0xFFFF (some 0xFF))) (.operand (.far true true 0xFFFF (some 0xFF)))
        (.operand (.far true true 0xFFFF (some 0xFF))))] : List (List Byte × Instr)),
    decode e.1 = .instr e.2 e.1.length := by decide +kernel

/-- A reserved opcode, a byte past the instruction, a short window, an empty one. -/
theorem test_decode_edges : decode [0x04, 0x2A, 0x99] = .instr (.back 0x2A) 2 ∧ decode [] = .truncated 0 ∧
    decode [0x05, 0x12] = .truncated 2 := by decide +kernel

/-- The opcode table's numbering: byte 0 is bits 7 to 0; bytes above the given bits are 0. -/
theorem test_decodeTableWord : decodeTableWord 24 0x341205 = some (.b 0x1234) ∧
    decodeTableWord 8 0xA0 = some (.add false (.short 0) (.operand (.short 0))) ∧
    decodeTableWord 16 0x3440 = some (.br 0x034) := by decide +kernel

/-! ### Records: whole transactions through `step`, from reset -/

/-- Address, window, then index, width flag, operand text, length and line of the record. -/
abbrev Row := Word × List Byte × Option Nat × Bool × Text × Nat × Text

/-- What the host receives for one transaction handed to the block after reset. -/
def received (a : Word) (bytes : List Byte) : Option TxOutcome :=
  match step (State.reset.present ⟨a, bytes⟩) with
  | .next t => t.outcome
  | .fault _ => none
  | .refused _ => none

/-- The fields of an `OK` record that the vectors list. -/
def reported (a : Word) (bytes : List Byte) : Option (Option Nat × Bool × Text × Nat × Text) :=
  match received a bytes with
  | some (.ok r) => some (r.index, r.wflag, r.optext, r.length, r.line)
  | _ => none

/-- V0.1 to V0.5. -/
theorem test_reserved_records : ∀ e ∈ (
    [(0x0000, [0x14], some 20, false, [], 1, "0000 XGPL   ".toList),
     (0x0100, [0x1F, 0x86, 0x7F], some 20, false, [], 1, "0100 XGPL   ".toList),
     (0x0100, [0x99], some 36, false, [], 1, "0100 XGPL   ".toList),
     (0x0100, [0xF3, 0x10, 0x20], some 57, false, [], 1, "0100 XGPL   ".toList),
     (0xFFFF, [0xFF], some 60, false, [], 1, "FFFF XGPL   ".toList)] : List Row), reported e.1 e.2.1 = some e.2.2 := by decide +kernel

/-- V2.1 to V2.10. -/
theorem test_literal_records : ∀ e ∈ (
    [(0x0000, [0x04, 0x2A], some 4, false, ">2A".toList, 2, "0000 BACK   >2A".toList),
     (0x0000, [0x04, 0xFF], some 4, false, ">FF".toList, 2, "0000 BACK   >FF".toList),
     (0x0000, [0x05, 0x12, 0x34], some 5, false, ">1234".toList, 3, "0000 B      >1234".toList),
     (0x6000, [0x06, 0xFF, 0xFF], some 6, false, ">FFFF".toList, 3, "6000 CALL   >FFFF".toList),
     (0x0020, [0x02, 0x0A], some 2, false, ">0A".toList, 2, "0020 RAND   >0A".toList),
     (0x0020, [0x07, 0x20], some 7, false, ">20".toList, 2, "0020 ALL    >20".toList),
     (0x0020, [0x0E, 0x80], some 14, false, ">80".toList, 2, "0020 PARSE  >80".toList),
     (0x0020, [0x0F, 0xF0], some 15, false, ">F0".toList, 2, "0020 XML    >F0".toList)] : List Row), reported e.1 e.2.1 = some e.2.2 := by decide +kernel

/-- V3.1 to V3.12, V7.1. -/
theorem test_noOperand_records : ∀ e ∈ (
    [(0x0100, [0x00], some 0, false, [], 1, "0100 RTN    ".toList),
     (0x0101, [0x01], some 1, false, [], 1, "0101 RTNC   ".toList),
     (0x0103, [0x03], some 3, false, [], 1, "0103 SCAN   ".toList),
     (0x0109, [0x09], some 9, false, [], 1, "0109 H      ".toList),
     (0x010A, [0x0A], some 10, false, [], 1, "010A GT     ".toList),
     (0x010B, [0x0B], some 11, false, [], 1, "010B EXIT   ".toList),
     (0x010C, [0x0C], some 12, false, [], 1, "010C CARRY  ".toList),
     (0x010D, [0x0D], some 13, false, [], 1, "010D OVF    ".toList),
     (0x0110, [0x10], some 16, false, [], 1, "0110 CONT   ".toList),
     (0x0111, [0x11], some 17, false, [], 1, "0111 EXEC   ".toList),
     (0x0112, [0x12], some 18, false, [], 1, "0112 RTNB   ".toList),
     (0x0113, [0x13], some 19, false, [], 1, "0113 RTGR   ".toList),
     (0x0100, [0x08], some 8, false, [], 1, "0100 FMT    ".toList)] : List Row), reported e.1 e.2.1 = some e.2.2 := by decide +kernel

/-- V4.1, V4.2, V4.3, V4.5, V4.6, V4.8: the page of the opcode byte, the displacement absolute in it. -/
theorem test_branch_records : ∀ e ∈ (
    [(0x6000, [0x40, 0x34], some 22, false, ">6034".toList, 2, "6000 BR     >6034".toList),
     (0x0000, [0x40, 0x34], some 22, false, ">0034".toList, 2, "0000 BR     >0034".toList),
     (0x7FFF, [0x5F, 0xFF], some 22, false, ">7FFF".toList, 2, "7FFF BR     >7FFF".toList),
     (0xFFFF, [0x40, 0x00], some 22, false, ">E000".toList, 2, "FFFF BR     >E000".toList),
     (0x1FFF, [0x7F, 0xFF], some 23, false, ">1FFF".toList, 2, "1FFF BS     >1FFF".toList),
     (0x9ABC, [0x6A, 0xBC], some 23, false, ">8ABC".toList, 2, "9ABC BS     >8ABC".toList)] : List Row), reported e.1 e.2.1 = some e.2.2 := by decide +kernel

/-- The worked examples of R181 to R192. -/
theorem test_oneOperand_records : ∀ e ∈ (
    [(0x0100, [0x80, 0x7F], some 24, false, "@>837F".toList, 2, "0100 ABS    @>837F".toList),
     (0x0100, [0x83, 0x80, 0x80], some 25, true, "@>8380".toList, 3, "0100 DNEG   @>8380".toList),
     (0x0100, [0x84, 0x90, 0x10], some 26, false, "*>8310".toList, 3, "0100 INV    *>8310".toList),
     (0x0100, [0x87, 0x74], some 27, true, "@>8374".toList, 2, "0100 DCLR   @>8374".toList),
     (0x0100, [0x88, 0x8E, 0xFF], some 28, false, "@>91FF".toList, 3, "0100 FETCH  @>91FF".toList),
     (0x0100, [0x8B, 0x5C], some 29, true, "@>835C".toList, 2, "0100 DCASE  @>835C".toList),
     (0x0100, [0x8C, 0xA1, 0x00], some 30, false, "V@>0100".toList, 3, "0100 PUSH   V@>0100".toList),
     (0x0100, [0x8F, 0xB0, 0x4A], some 31, true, "V*>834A".toList, 3, "0100 DCZ    V*>834A".toList),
     (0x0100, [0x90, 0xC0, 0x10, 0x20], some 32, false, "@>8310(@>8320)".toList, 4, "0100 INC    @>8310(@>8320)".toList),
     (0x0100, [0x93, 0x8F, 0x7D, 0x00], some 33, true, "@>0000".toList, 4, "0100 DDEC   @>0000".toList),
     (0x0100, [0x94, 0xEF, 0x40, 0x00, 0x02], some 34, false, "V@>4000(@>8302)".toList, 5, "0100 INCT   V@>4000(@>8302)".toList),
     (0x0100, [0x97, 0x00], some 35, true, "@>8300".toList, 2, "0100 DDECT  @>8300".toList)] : List Row), reported e.1 e.2.1 = some e.2.2 := by decide +kernel

/-- V5.1 to V5.16: every addressing mode, the escape, the last sum that does not wrap and the first that does. -/
theorem test_addressing_modes : ∀ e ∈ (
    [(0x0100, [0x86, 0x7F], some 27, false, "@>837F".toList, 2, "0100 CLR    @>837F".toList),
     (0x0100, [0x86, 0x80, 0x00], some 27, false, "@>8300".toList, 3, "0100 CLR    @>8300".toList),
     (0x0100, [0x86, 0x8E, 0xFF], some 27, false, "@>91FF".toList, 3, "0100 CLR    @>91FF".toList),
     (0x0100, [0x86, 0x90, 0x10], some 27, false, "*>8310".toList, 3, "0100 CLR    *>8310".toList),
     (0x0100, [0x86, 0xA1, 0x00], some 27, false, "V@>0100".toList, 3, "0100 CLR    V@>0100".toList),
     (0x0100, [0x86, 0xB0, 0x10], some 27, false, "V*>8310".toList, 3, "0100 CLR    V*>8310".toList),
     (0x0100, [0x86, 0x8F, 0x00, 0x00], some 27, false, "@>8300".toList, 4, "0100 CLR    @>8300".toList),
     (0x0100, [0x86, 0x8F, 0x7C, 0xFF], some 27, false, "@>FFFF".toList, 4, "0100 CLR    @>FFFF".toList),
     (0x0100, [0x86, 0x8F, 0x7D, 0x00], some 27, false, "@>0000".toList, 4, "0100 CLR    @>0000".toList),
     (0x0100, [0x86, 0x8F, 0xFF, 0xFF], some 27, false, "@>82FF".toList, 4, "0100 CLR    @>82FF".toList),
     (0x0100, [0x86, 0xAF, 0x12, 0x34], some 27, false, "V@>1234".toList, 4, "0100 CLR    V@>1234".toList),
     (0x0100, [0x86, 0xBF, 0x12, 0x34], some 27, false, "V*>9534".toList, 4, "0100 CLR    V*>9534".toList),
     (0x0100, [0x86, 0xC0, 0x10, 0x20], some 27, false, "@>8310(@>8320)".toList, 4, "0100 CLR    @>8310(@>8320)".toList),
     (0x0100, [0x86, 0xCF, 0x12, 0x34, 0x56], some 27, false, "@>9534(@>8356)".toList, 5, "0100 CLR    @>9534(@>8356)".toList)] : List Row), reported e.1 e.2.1 = some e.2.2 := by decide +kernel

/-- The worked examples of R111 to R132. -/
theorem test_twoOperand_records : ∀ e ∈ (
    [(0x2000, [0xA0, 0x10, 0x20], some 37, false, "@>8320,@>8310".toList, 3, "2000 ADD    @>8320,@>8310".toList),
     (0x2000, [0xA7, 0x74, 0x12, 0x31], some 38, true, ">1231,@>8374".toList, 4, "2000 DSUB   >1231,@>8374".toList),
     (0x2000, [0xA9, 0xA1, 0x00, 0x4A], some 39, true, "@>834A,V@>0100".toList, 4, "2000 DMUL   @>834A,V@>0100".toList),
     (0x2000, [0xAF, 0x90, 0x10, 0x12, 0x33], some 40, true, ">1233,*>8310".toList, 5, "2000 DDIV   >1233,*>8310".toList),
     (0x2000, [0xB0, 0x8F, 0x10, 0x00, 0x00], some 41, false, "@>8300,@>9300".toList, 5, "2000 AND    @>8300,@>9300".toList),
     (0x2000, [0xB7, 0xC0, 0x10, 0x20, 0x12, 0x35], some 42, true, ">1235,@>8310(@>8320)".toList, 6, "2000 DOR    >1235,@>8310(@>8320)".toList),
     (0x2000, [0xB9, 0xB0, 0x4A, 0x7F], some 43, true, "@>837F,V*>834A".toList, 4, "2000 DXOR   @>837F,V*>834A".toList),
     (0x2000, [0xBF, 0x5C, 0x12, 0x37], some 44, true, ">1237,@>835C".toList, 4, "2000 DST    >1237,@>835C".toList),
     (0x2000, [0xC0, 0xAF, 0x12, 0x34, 0x80, 0x80], some 45, false, "@>8380,V@>1234".toList, 6, "2000 EX     @>8380,V@>1234".toList),
     (0x2000, [0xC7, 0x00, 0x12, 0x39], some 46, true, ">1239,@>8300".toList, 4, "2000 DCH    >1239,@>8300".toList),
     (0x2000, [0xC9, 0xE3, 0x00, 0x05, 0x01], some 47, true, "@>8301,V@>0300(@>8305)".toList, 5, "2000 DCHE   @>8301,V@>0300(@>8305)".toList),
     (0x2000, [0xCD, 0x10, 0x20], some 48, true, "@>8320,@>8310".toList, 3, "2000 DCGT   @>8320,@>8310".toList),
     (0x2000, [0xD2, 0x74, 0x11], some 49, false, ">11,@>8374".toList, 3, "2000 CGE    >11,@>8374".toList),
     (0x2000, [0xD4, 0xA1, 0x00, 0x4A], some 50, false, "@>834A,V@>0100".toList, 4, "2000 CEQ    @>834A,V@>0100".toList),
     (0x2000, [0xDA, 0x90, 0x10, 0x13], some 51, false, ">13,*>8310".toList, 4, "2000 CLOG   >13,*>8310".toList),
     (0x2000, [0xDD, 0x8F, 0x10, 0x00, 0x00], some 52, true, "@>8300,@>9300".toList, 5, "2000 DSRA   @>8300,@>9300".toList),
     (0x2000, [0xE2, 0xC0, 0x10, 0x20, 0x15], some 53, false, ">15,@>8310(@>8320)".toList, 5, "2000 SLL    >15,@>8310(@>8320)".toList),
     (0x2000, [0xE4, 0xB0, 0x4A, 0x7F], some 54, false, "@>837F,V*>834A".toList, 4, "2000 SRL    @>837F,V*>834A".toList),
     (0x2000, [0xEA, 0x5C, 0x17], some 55, false, ">17,@>835C".toList, 3, "2000 SRC    >17,@>835C".toList),
     (0x2000, [0xED, 0xAF, 0x12, 0x34, 0x80, 0x80], some 56, true, "@>8380,V@>1234".toList, 6, "2000 DCOINC @>8380,V@>1234".toList),
     (0x2000, [0xF6, 0x00, 0x19], some 58, false, ">19,@>8300".toList, 3, "2000 I/O    >19,@>8300".toList),
     (0x2000, [0xF8, 0xE3, 0x00, 0x05, 0x01], some 59, false, "@>8301,V@>0300(@>8305)".toList, 5, "2000 SWGR   @>8301,V@>0300(@>8305)".toList)] : List Row), reported e.1 e.2.1 = some e.2.2 := by decide +kernel

/-- V1.3, V1.4, V1.8, V1.10, V1.13: both literal sizes, mixed operand sizes, the longest instruction. -/
theorem test_twoOperand_edges : ∀ e ∈ (
    [(0x2000, [0xA2, 0x10, 0x20], some 37, false, ">20,@>8310".toList, 3, "2000 ADD    >20,@>8310".toList),
     (0x2000, [0xA3, 0x10, 0x12, 0x34], some 37, true, ">1234,@>8310".toList, 4, "2000 DADD   >1234,@>8310".toList),
     (0x2000, [0xA4, 0x8F, 0x10, 0x00, 0xC0, 0x05, 0x07], some 38, false, "@>8305(@>8307),@>9300".toList, 7, "2000 SUB    @>8305(@>8307),@>9300".toList),
     (0x2000, [0xE1, 0xFB, 0x10, 0x20, 0x05], some 53, true, "@>8305,V*>8E10(@>8320)".toList, 5, "2000 DSLL   @>8305,V*>8E10(@>8320)".toList),
     (0x2000, [0xA0, 0xFF, 0xFF, 0xFF, 0xFF, 0xFF, 0xFF, 0xFF, 0xFF], some 37, false, "V*>82FF(@>83FF),V*>82FF(@>83FF)".toList, 9, "2000 ADD    V*>82FF(@>83FF),V*>82FF(@>83FF)".toList)] : List Row), reported e.1 e.2.1 = some e.2.2 := by decide +kernel

/-- V6.8, V6.9, V6.10, V6.13, V6.14, V6.16. -/
theorem test_move_records : ∀ e ∈ (
    [(0x4000, [0x31, 0x00, 0x20, 0xA1, 0x00, 0x12, 0x34], some 21, false, ">0020,V@>0100,G@>1234".toList, 7, "4000 MOVE   >0020,V@>0100,G@>1234".toList),
     (0x4000, [0x35, 0x01, 0x00, 0x8F, 0x10, 0x00, 0x60, 0x00, 0x7E], some 21, false, ">0100,@>9300,G@>6000(@>837E)".toList, 9, "4000 MOVE   >0100,@>9300,G@>6000(@>837E)".toList),
     (0x4000, [0x38, 0x01, 0x02, 0x03], some 21, false, "@>8301,@>8302,#3".toList, 4, "4000 MOVE   @>8301,@>8302,#3".toList),
     (0x4000, [0x3D, 0x00, 0x08, 0xFF, 0xFF, 0xFF, 0xFF, 0xFF, 0xFF, 0xFF, 0xFF], some 21, false, ">0008,V*>82FF(@>83FF),#7".toList, 11, "4000 MOVE   >0008,V*>82FF(@>83FF),#7".toList),
     (0x4000, [0x3C, 0xFF, 0xFF, 0xFF, 0xFF, 0xFF, 0xFF, 0xFF, 0xFF, 0xFF, 0xFF, 0xFF, 0xFF], some 21, false, "V*>82FF(@>83FF),V*>82FF(@>83FF),#7".toList, 13, "4000 MOVE   V*>82FF(@>83FF),V*>82FF(@>83FF),#7".toList),
     (0x4000, [0x38, 0x01, 0x02, 0xA0, 0x09], some 21, false, "@>8301,@>8302,#1".toList, 5, "4000 MOVE   @>8301,@>8302,#1".toList)] : List Row), reported e.1 e.2.1 = some e.2.2 := by decide +kernel

/-- V9.1 to V9.18: the offset of the first missing byte. -/
theorem test_truncations : ∀ e ∈ (
    [(0x0000, [], 0),
     (0x0000, [0x04], 1),
     (0x0000, [0x05], 1),
     (0x0000, [0x05, 0x12], 2),
     (0x6000, [0x40], 1),
     (0x0100, [0x86], 1),
     (0x0100, [0x86, 0x80], 2),
     (0x0100, [0x86, 0x8F, 0x00], 3),
     (0x0100, [0x86, 0xC0, 0x10], 3),
     (0x0100, [0x86, 0xCF, 0x12, 0x34], 4),
     (0x2000, [0xA0], 1),
     (0x2000, [0xA0, 0x10], 2),
     (0x2000, [0xA2, 0x10], 2),
     (0x2000, [0xA3, 0x10, 0x12], 3),
     (0x4000, [0x31], 1),
     (0x4000, [0x31, 0x00, 0x20, 0xA1, 0x00, 0x12], 6),
     (0x4000, [0x38, 0x01, 0x02], 3),
     (0x4000, [0x3C, 0xFF, 0xFF, 0xFF, 0xFF, 0xFF, 0xFF, 0xFF, 0xFF, 0xFF, 0xFF, 0xFF], 12)] : List (Word × List Byte × Nat)),
    transaction Config.default ⟨e.1, e.2.1⟩ = .truncated e.2.2 := by decide +kernel

/-- R181, R110, R170, R206: the structured operands of five instructions (`F6 10 01` is V1.11, `38 01 02 0A` is V6.15). -/
theorem test_operands : (match received 0x2000 [0xF6, 0x10, 0x01] with
      | some (.ok r) => decide (r.ops = [.imm8 0x01, .mem .cpu false 0x8310 false none] ∧ r.mnemonic = "I/O".toList)
      | _ => false) = true ∧
    (match received 0x4000 [0x38, 0x01, 0x02, 0x0A] with
      | some (.ok r) => decide (r.ops = [.mem .cpu false 0x8301 false none, .mem .cpu false 0x8302 false none, .vreg 2])
      | _ => false) = true ∧
    (match received 0x6000 [0x40, 0x34] with
      | some (.ok r) => decide (r.ops = [.target 0x6034])
      | _ => false) = true ∧
    (match received 0x0100 [0x86, 0xCF, 0x12, 0x34, 0x56] with
      | some (.ok r) => decide (r.ops = [.mem .cpu false 0x9534 true (some 0x8356)])
      | _ => false) = true ∧
    (match received 0x4000 [0x35, 0x01, 0x00, 0x8F, 0x10, 0x00, 0x60, 0x00, 0x7E] with
      | some (.ok r) => decide (r.ops = [.imm16 0x0100, .mem .cpu false 0x9300 true none, .grom 0x6000 (some 0x837E)])
      | _ => false) = true := by decide +kernel

/-! ### Other parameters and other tables -/

/-- The table of V8.3 and V8.4: the default without entry 60. -/
def shortTable : Config := { Config.default with optable := defaultTable.dropLast }

/-- The table of V8.5: entry 60 has format -1. -/
def unknownTable : Config := { Config.default with optable := defaultTable.dropLast ++ [⟨"?".toList, 0xFC, 0xFF, .unknown⟩] }

/-- V8.4: no entry contains the byte. -/
theorem test_unknown_without_entry : transaction shortTable ⟨0x0100, [0xFE, 0x10, 0x20]⟩ =
    .unknown ⟨none, 0xFE, [], .unknown, false, [], [], "Invalid opcode >FE".toList, 1⟩ := by decide +kernel

/-- V8.5: an entry of format -1 is reported with its index and mnemonic. -/
theorem test_unknown_entry : transaction unknownTable ⟨0x0100, [0xFE]⟩ =
    .unknown ⟨some 60, 0xFE, ['?'], .unknown, false, [], [], "Invalid opcode >FE".toList, 1⟩ := by decide +kernel

/-- V9.23: an unmatched byte has priority over a short window, the empty window over everything. -/
theorem test_priority : (transaction shortTable ⟨0, [0xFE]⟩).code = 1 ∧ transaction shortTable ⟨0, []⟩ = .truncated 0 := by
  decide +kernel

/-- V8.2: where ranges overlap the first entry wins. -/
theorem test_order_decides :
    lookup (⟨"CLR".toList, 0x86, 0x87, .oneOperand⟩ :: ⟨"XGPL".toList, 0x80, 0x9F, .reserved⟩ :: defaultTable) 0x86 =
      some (0, ⟨"CLR".toList, 0x86, 0x87, .oneOperand⟩) ∧
    lookup (⟨"XGPL".toList, 0x80, 0x9F, .reserved⟩ :: ⟨"CLR".toList, 0x86, 0x87, .oneOperand⟩ :: defaultTable) 0x86 =
      some (0, ⟨"XGPL".toList, 0x80, 0x9F, .reserved⟩) := by decide +kernel

/-- A table in which the only reserved range is a last entry over every byte: what R56 calls a catch-all. -/
def catchAllTable : Config :=
  { Config.default with optable := defaultTable.filter (fun d => d.format ≠ .reserved) ++ [⟨"XGPL".toList, 0, 0xFF, .reserved⟩] }

/-- R56: a catch-all may stand behind the ranges it overlaps, and not before one of them (the swapped table of V8.2). -/
theorem test_catchall_order : catchAllTable.specificFirst = true ∧
    Config.specificFirst { Config.default with
      optable := [⟨"CLR".toList, 0x86, 0x87, .oneOperand⟩, ⟨"XGPL".toList, 0x80, 0x9F, .reserved⟩] } = true ∧
    Config.specificFirst { Config.default with
      optable := [⟨"XGPL".toList, 0x80, 0x9F, .reserved⟩, ⟨"CLR".toList, 0x86, 0x87, .oneOperand⟩] } = false := by
  decide +kernel

/-- R56, R57 and R11: construction refuses an `XGPL` entry and a `MOVE` entry of format 3, and a blank or a tab in a mnemonic (log 31). -/
theorem test_rom_entry_refused :
    Config.romValid { Config.default with optable := defaultTable.dropLast ++ [⟨"XGPL".toList, 0xFC, 0xFF, .noOperand⟩] } = false ∧
    Config.romValid { Config.default with optable := defaultTable ++ [⟨"MOVE".toList, 0, 0, .noOperand⟩] } = false ∧
    Descriptor.legal ⟨['A', '\t'], 0, 0, .noOperand⟩ = false ∧ Descriptor.legal ⟨['A', ' '], 0, 0, .noOperand⟩ = false ∧
    Descriptor.legal ⟨['I', '/', 'O'], 0, 0, .noOperand⟩ = true := by decide +kernel

/-- V8.7: the line under other layout parameters. -/
theorem test_line_parameters :
    compose { Config.default with widthMark := 'W' } 0x0100 true "CLR".toList "@>835C".toList = "0100 WCLR   @>835C".toList ∧
    compose { Config.default with mnemWidth := 8 } 0x0100 true "CLR".toList "@>835C".toList =
      "0100 DCLR     @>835C".toList ∧
    compose { Config.default with addrSep := ": ".toList } 0x0100 true "CLR".toList "@>835C".toList =
      "0100: DCLR   @>835C".toList ∧
    compose { Config.default with mnemWidth := 4 } 0x2000 false "COINC".toList "@>8320,@>8310".toList =
      "2000 COINC @>8320,@>8310".toList := by decide +kernel

/-- A scan that starts below its image ends at once (the model's choice, log 33); at its first byte it runs. -/
theorem test_scan_below_base : scan Config.default [0x00] 0x0003 0x0002 0x0004 = [(2, .truncated 0)] ∧
    (scan Config.default [0x00] 0x0003 0x0003 0x0004).map (fun p => (p.1, p.2.code)) = [(3, 0)] := by decide +kernel

/-- The last two entries of P3: the host stops at the first truncation. -/
theorem test_scan_stops_at_truncation :
    (scan Config.default [0x07, 0x20, 0x05, 0x12] 0x0003 0x0003 0x0007).map (fun p => (p.1, p.2.code)) = [(3, 0), (5, 2)] := by
  decide +kernel

/-- R281: what construction leaves. -/
theorem test_reset : State.reset = ⟨none, none, none⟩ := rfl

/-! ### Witnesses: a state and operands that meet the hypotheses of each statement -/

/-- A context in mid-transaction, as the completion statements need one. -/
def someCtx : Context := Context.start 0x6000

/-- A state in mid-transaction. -/
def busy : State := ⟨none, some someCtx, none⟩

theorem witness_StepRunsDecodedInstruction :
    (State.reset.present ⟨0x6000, [0x40, 0x34]⟩).request = some ⟨0x6000, [0x40, 0x34]⟩ ∧
    decode [0x40, 0x34] = .instr (.br 0x034) 2 := by decide +kernel

theorem witness_EveryStepAnswersNext : State.reset.request = none ∧ (State.reset.present ⟨0xFFFF, []⟩).request ≠ none := by
  decide

theorem witness_IdleStepKeepsState : State.reset.request = none := rfl

theorem witness_EveryStepKeepsSafety : State.Safe (State.reset.present ⟨0, [0x00]⟩) ∧
    ∃ t, step (State.reset.present ⟨0, [0x00]⟩) = .next t :=
  ⟨⟨rfl, fun _ h => nomatch h⟩, _, rfl⟩

theorem witness_StepDependsOnRequestAlone : (State.reset.present ⟨0, [0x00]⟩).request = (busy.present ⟨0, [0x00]⟩).request ∧
    (State.reset.present ⟨0, [0x00]⟩).request ≠ none ∧ State.reset.present ⟨0, [0x00]⟩ ≠ busy.present ⟨0, [0x00]⟩ := by decide

theorem witness_DecodeOfEncodeIsIdentity : (Instr.clr false (.near true true 0xEFF (some 0xFF))).wf = true ∧
    (Instr.move 0b11100 (.operand (.far true true 0xFFFF (some 0xFF))) (.operand (.short 0)) (.operand (.short 0x7F))).wf =
      true := by decide

theorem witness_EncodeOfDecodeIsIdentity : decode [0x87, 0x5C, 0xFF] = .instr (.clr true (.short 0x5C)) 2 := by decide +kernel

theorem witness_PartOfEncodingIsTruncated : (Instr.b 0x1234).wf = true ∧ 0 < (encode (.b 0x1234)).length ∧
    2 < (encode (.b 0x1234)).length := by decide

theorem witness_LookupGivesFirstMatchingEntry : lookup defaultTable 0xFF = some (60, ⟨"XGPL".toList, 0xFC, 0xFF, .reserved⟩) ∧
    lookup defaultTable.dropLast 0xFC = none ∧ Config.default.tableTotal = true := by decide +kernel

theorem witness_ByteWithoutRoutineGivesDiagnostic : lookup shortTable.optable 0xFC = none ∧
    lookup unknownTable.optable 0xFC = some (60, ⟨"?".toList, 0xFC, 0xFF, .unknown⟩) := by decide +kernel

theorem witness_UnknownExactlyWithoutRoutine : (transaction shortTable ⟨0, [0xFC]⟩).code = 1 ∧
    lookup shortTable.optable 0xFC = none := by decide +kernel

theorem witness_TotalTableNeverReportsUnknown : Config.default.tableTotal = true ∧ shortTable.tableTotal = false := by
  decide +kernel

theorem witness_ReservedEntryHidesNoSpecificEntry : catchAllTable.romValid = true ∧
    lookup catchAllTable.optable 0x14 = some (57, ⟨"XGPL".toList, 0, 0xFF, .reserved⟩) ∧
    lookup catchAllTable.optable 0x20 = some (20, ⟨"MOVE".toList, 0x20, 0x3F, .move⟩) := by decide +kernel

theorem witness_SrcDstReadsEveryForm : (SrcDst.near true true 0xEFF (some 0xFF)).wf = true ∧
    ({ someCtx with cur := 2 } : Context).cur = [0xA0#8, 0x00].length := by decide

/-- Both ends of the range of offsets. -/
theorem witness_SrcDstTruncatesAtWindowEnd : someCtx.srcDst [] = .error 0 ∧
    someCtx.srcDst [0xCF, 0x12, 0x34] = .error 3 := ⟨rfl, rfl⟩

theorem witness_GromOperandReadsEveryForm : someCtx.cur = ([] : List Byte).length ∧
    (0 : Nat) < 2 + (if (none : Option Byte).isSome then 1 else 0) ∧
    (2 : Nat) < 2 + (if (some (0x7E : Byte)).isSome then 1 else 0) := by decide

/-- The escape's bound, and the two offsets about the wrap. -/
theorem witness_OnlyExtendedSumsWrap : (SrcDst.near false false 0xEFF none).wf = true ∧
    ¬ (false = true ∧ false = false) ∧ (0x7CFF#16).toNat < 0x7D00 ∧ 0x7D00 ≤ (0x7D00#16).toNat := by decide

theorem witness_FormatsWithoutOperand :
    lookup Config.default.optable 0x14 = some (20, romEntry 20) ∧ (romEntry 20).format = .reserved ∧
    lookup Config.default.optable 0x00 = some (0, romEntry 0) ∧ (romEntry 0).format = .noOperand ∧
    lookup Config.default.optable 0x08 = some (8, romEntry 8) ∧ (romEntry 8).format = .screen := by decide +kernel

theorem witness_FormatByteLiteral :
    lookup Config.default.optable 0x04 = some (4, romEntry 4) ∧ (romEntry 4).format = .literal .byte := by decide +kernel

theorem witness_FormatWordLiteral :
    lookup Config.default.optable 0x05 = some (5, romEntry 5) ∧ (romEntry 5).format = .literal .word := by decide +kernel

theorem witness_FormatBranch :
    lookup Config.default.optable 0x7F = some (23, romEntry 23) ∧ (romEntry 23).format = .branch := by decide +kernel

theorem witness_FormatOneOperand :
    lookup Config.default.optable 0x97 = some (35, romEntry 35) ∧ (romEntry 35).format = .oneOperand ∧
    (SrcDst.far true true 0xFFFF (some 0xFF)).wf = true ∧ 3 < (SrcDst.far true true 0xFFFF (some 0xFF)).size := by decide +kernel

theorem witness_FormatTwoOperand :
    lookup Config.default.optable 0xA3 = some (37, romEntry 37) ∧ (romEntry 37).format = .twoOperand ∧
    (SrcDst.short 0x10).wf = true ∧ (Source.lit16 0x1234).wf ((0xA3 : Byte).getLsbD 0) = true ∧
    (Source.lit16 0x1234).isLit = (0xA3 : Byte).getLsbD 1 ∧
    2 < (SrcDst.short 0x10).size + (Source.lit16 0x1234).size := by decide +kernel

theorem witness_FormatMove :
    lookup Config.default.optable 0x31 = some (21, romEntry 21) ∧ (romEntry 21).format = .move ∧
    (Count.lit 0x0020).wf ((0x31 : Byte).getLsbD Config.default.moveMap.numimm) = true ∧
    (Slot.operand (.near true false 0x100 none)).wf ((0x31 : Byte).getLsbD Config.default.moveMap.selB)
      ((0x31 : Byte).getLsbD Config.default.moveMap.idxB) = true ∧
    (Slot.grom ⟨0x1234, none⟩).wf ((0x31 : Byte).getLsbD Config.default.moveMap.selC)
      ((0x31 : Byte).getLsbD Config.default.moveMap.idxC) = true ∧
    5 < (Count.lit 0x0020).size + (Slot.operand (.near true false 0x100 none)).size + (Slot.grom ⟨0x1234, none⟩).size := by
  decide +kernel

/-- A record, a longer window with the same first bytes, a shorter non-empty part. -/
theorem witness_WindowMonotonicity : ∃ r, transaction Config.default ⟨0, [0x05, 0x12, 0x34]⟩ = .ok r ∧
    [0x05#8, 0x12, 0x34, 0xFF].take r.length = [0x05#8, 0x12, 0x34].take r.length ∧ 0 < 1 ∧ 2 < r.length :=
  ⟨_, rfl, by decide +kernel⟩

theorem witness_TruncationOffsetIsWindowLength : transaction Config.default ⟨0, []⟩ = .truncated 0 ∧
    transaction Config.default ⟨0, [0x05, 0x12]⟩ = .truncated 2 := by decide +kernel

/-- The shortest and the longest record. -/
theorem witness_LengthWithinFormatBounds :
    (∃ r, transaction Config.default ⟨0, [0x00]⟩ = .ok r) ∧
    ∃ r, transaction Config.default ⟨0, [0x3C, 0xFF, 0xFF, 0xFF, 0xFF, 0xFF, 0xFF, 0xFF, 0xFF, 0xFF, 0xFF, 0xFF, 0xFF]⟩ =
      .ok r := ⟨⟨_, rfl⟩, _, rfl⟩

theorem witness_MoveLengthsByMode :
    ∃ r, transaction Config.default ⟨0, (0b001#3 ++ 0b11000#5) :: [0x01, 0x02, 0x03]⟩ = .ok r := ⟨_, rfl⟩

/-- Two addresses of one page; a byte that no branch format takes. -/
theorem witness_AddressReachesOnlyLineAndTarget : (0x6000#16 &&& 0xE000) = (0x7ABC#16 &&& 0xE000) ∧
    lookup Config.default.optable 0x05 = some (5, romEntry 5) ∧ (romEntry 5).format ≠ .branch := by decide +kernel

theorem witness_WidthFlagFollowsFormatAndBitZero :
    (∃ r, transaction Config.default ⟨0, [0x87, 0x5C]⟩ = .ok r ∧ r.wflag = true) ∧
    ∃ r, transaction Config.default ⟨0, [0x21, 0, 1, 0, 0, 0, 0]⟩ = .ok r ∧ r.wflag = false := ⟨⟨_, rfl, rfl⟩, _, rfl, rfl⟩

theorem witness_LineComposition : ∃ r, transaction Config.default ⟨0x0100, [0x87, 0x5C]⟩ = .ok r := ⟨_, rfl⟩

theorem witness_completions : busy.ctx = some someCtx := rfl

theorem witness_ExecFrame : ∃ t, exec (.br 0x034) busy = .next t := ⟨_, rfl⟩

theorem witness_ExecNeedsTransaction : State.reset.ctx = none := rfl

theorem witness_PresentedInstructionIsRun : (Instr.st true (.short 0x5C) (.lit16 0x1237)).wf = true := by decide

theorem witness_FetchWordIsRunByNextStep : decodeTableWord 16 0x3440 = some (.br 0x034) ∧ State.reset.request = none ∧
    (State.reset.present ⟨0x6000, []⟩).request = some ⟨0x6000, []⟩ := by decide +kernel

/-- A member, the first and the last entry with a length, and a range that is not empty. -/
theorem witness_ScanAdvancesByLength :
    (∃ p, (scan Config.default [0x00, 0x01] 0 0 2).head? = some p ∧ p ∈ scan Config.default [0x00, 0x01] 0 0 2) ∧
    (∃ p n, (scan Config.default [0x00, 0x01] 0 0 2).getLast? = some p ∧ p.2.length? = some n) ∧ 0 < 2 :=
  ⟨⟨_, rfl, List.mem_cons_self⟩, ⟨_, _, rfl, rfl⟩, by decide⟩

end Sys2Proof.Machine
end

section
/-! What a meaning, the settling of a decoded window and a step can answer, said once; then the scope statements O2 and O46. -/

namespace Sys2Proof.Machine

/-! ### The meanings -/

/-- In a context every meaning ends the transaction with `OK`. -/
theorem exec_of_ctx {s : State} {c : Context} (h : s.ctx = some c) (i : Instr) :
    ∃ r, exec i s = .next (s.finish (.ok r)) := by
  obtain ⟨k, op, n, w, ops, hexec, -⟩ := exec_complete i
  exact ⟨_, (hexec s).trans (complete_of_ctx h k op n w ops)⟩

/-- All that a meaning can answer next: the record of a decoded context for one ROM entry, with the operands and the width
flag that the entry's format allows. -/
theorem exec_next {i : Instr} {s t : State} (h : exec i s = .next t) :
    ∃ (c : Context) (k : Nat) (op : Byte) (n : Nat) (w : Option Bool) (ops : List Operand), s.ctx = some c ∧
      ops.length = arity (romEntry k).format ∧ (writesWidth (romEntry k).format = false → w = none) ∧
      t = s.finish (.ok (okResult Config.default k (romEntry k) op c (c.decoded n w ops))) := by
  obtain ⟨k, op, n, w, ops, hexec, harity, hwidth, -⟩ := exec_complete i
  rw [hexec] at h
  obtain ⟨c, hctx, rfl⟩ := complete_next h
  exact ⟨c, k, op, n, w, ops c, hctx, harity c, hwidth, rfl⟩

/-- The line begins with the four digits of the address (R232). -/
theorem compose_take_four (cfg : Config) (a : Word) (w : Bool) (mnemonic optext : Text) :
    (compose cfg a w mnemonic optext).take 4 = hex4 a := by
  simp only [compose, List.append_assoc]
  exact List.take_left' (hex4_length a)

/-! ### The step -/

/-- In a context, whatever the window decoded to, the transaction ends with an outcome and does nothing else. -/
theorem settle_of_ctx {s : State} {c : Context} (h : s.ctx = some c) (d : Decoded) :
    ∃ o, settle d s = .next (s.finish o) := by
  cases d with
  | instr i n =>
    obtain ⟨r, hr⟩ := exec_of_ctx h i
    exact ⟨.ok r, hr⟩
  | unknown index op => exact ⟨_, rfl⟩
  | truncated k => exact ⟨.truncated k, rfl⟩

/-- The step with nothing handed over. -/
theorem step_of_no_request {s : State} (h : s.request = none) : step s = .next s := by
  simp [step, h]

/-- A transaction handed over leaves an outcome and nothing else. -/
theorem step_ends_transaction {s : State} {rq : Request} (h : s.request = some rq) :
    ∃ o, step s = .next ⟨none, none, some o⟩ := by
  obtain ⟨o, ho⟩ := settle_of_ctx (s.begin_ctx rq) (decode rq.bytes)
  exact ⟨o, (step_of_request h).trans ho⟩

/-! ### The statements -/

/-- Settles O2, by whether a transaction was handed over: an idle step keeps the state, and in the fresh context each of the
three results of decoding ends the transaction. -/
theorem everyStepAnswersNext : Obligations.EveryStepAnswersNext := by
  intro s
  cases hrq : s.request with
  | none => exact ⟨s, step_of_no_request hrq, fun _ => rfl, fun hne => absurd rfl hne⟩
  | some rq =>
    obtain ⟨o, ho⟩ := step_ends_transaction hrq
    exact ⟨_, ho, nofun, fun _ => ⟨rfl, rfl, o, rfl⟩⟩

/-- Settles O46: every meaning is `complete` for one ROM entry (`exec_next`), so the frame is read off the record of the
decoded context. -/
theorem execFrame : Obligations.ExecFrame := by
  intro i s t h
  obtain ⟨c, k, op, n, w, ops, hctx, harity, hwidth, rfl⟩ := exec_next h
  refine ⟨c, _, hctx, rfl, ?line, harity, ?flag⟩
  case line => exact compose_take_four _ _ _ _ _
  case flag =>
    intro hformat
    have hw : w = none := hwidth hformat
    simp [okResult, hw]

end Sys2Proof.Machine
end

section
/-! What a lookup finds, and what the default ROM is: the facts that the decoder and the meanings need of it. -/

namespace Sys2Proof

/-! ### The lookup -/

/-- The index that a scan finds is the position of the first covering entry (R225). -/
theorem lookupFrom_index (op : Byte) (n : Nat) (table : List Descriptor) :
    (lookupFrom op n table).map Prod.fst = (table.findIdx? fun d => d.covers op).map (· + n) := by
  induction table generalizing n with
  | nil => rfl
  | cons d ds ih =>
    cases hd : d.covers op with
    | true => simp [lookupFrom, List.findIdx?_cons, hd]
    | false =>
      simp only [lookupFrom, List.findIdx?_cons, hd, Bool.false_eq_true, if_false, ih, Option.map_map]
      congr 1
      funext j
      simp; omega

theorem lookup_index (table : List Descriptor) (op : Byte) :
    (lookup table op).map Prod.fst = table.findIdx? fun d => d.covers op := by
  simp [lookup, lookupFrom_index]

/-- What a scan finds is the entry at its index. -/
theorem lookupFrom_getElem? {op : Byte} {n i : Nat} {table : List Descriptor} {d : Descriptor}
    (h : lookupFrom op n table = some (i, d)) : n ≤ i ∧ table[i - n]? = some d := by
  induction table generalizing n with
  | nil => cases h
  | cons e es ih =>
    rw [lookupFrom] at h
    split at h
    case isTrue =>
      cases h
      simp
    case isFalse =>
      obtain ⟨hle, hget⟩ := ih h
      refine ⟨by omega, ?_⟩
      rw [show i - n = i - (n + 1) + 1 by omega, List.getElem?_cons_succ, hget]

theorem lookup_getElem? {op : Byte} {i : Nat} {table : List Descriptor} {d : Descriptor}
    (h : lookup table op = some (i, d)) : table[i]? = some d := (lookupFrom_getElem? h).2

/-- In a total table every byte resolves to an entry with a routine (R55). -/
theorem lookup_of_tableTotal {cfg : Config} (h : cfg.tableTotal = true) (op : Byte) :
    ∃ i d, lookup cfg.optable op = some (i, d) ∧ d.format ≠ .unknown := by
  have hop := List.all_eq_true.1 h op.toNat (List.mem_range.2 op.isLt)
  rw [BitVec.ofNat_toNat, BitVec.setWidth_eq] at hop
  split at hop
  case h_1 => cases hop
  case h_2 i d hlookup => exact ⟨i, d, hlookup, of_decide_eq_true hop⟩

/-! ### The default ROM -/

theorem default_tableTotal : Config.default.tableTotal = true := by decide +kernel

theorem default_anchors : Config.default.anchors = true := by decide +kernel

/-- Every entry of the default ROM is legal (R11). -/
theorem default_legal : Config.default.optable.all Descriptor.legal = true := by decide +kernel

/-- No two ranges of the default ROM overlap, so the order R56 asks for holds of itself. -/
theorem defaultTable_disjoint : defaultTable.Pairwise fun d e => d.overlaps e = false := by decide +kernel

theorem default_specificFirst : Config.default.specificFirst = true := by
  refine (Machine.specificFirst_iff _).2 (defaultTable_disjoint.imp fun hdisjoint _ hoverlap => ?_)
  rw [hdisjoint] at hoverlap
  cases hoverlap

/-- The entries of format 0 and those named `XGPL` are the same (R56), the entries of format 6 and those named `MOVE`
too (R57, R201). -/
theorem default_names :
    Config.default.optable.all (fun d => (d.format = .reserved) == (d.mnemonic = "XGPL".toList)) = true ∧
    Config.default.optable.all (fun d => (d.format = .move) == (d.mnemonic = "MOVE".toList)) = true := by
  decide +kernel

/-- Some opcode byte resolves to format 6, and exactly one to format 7 (R57). -/
theorem default_formats :
    (List.range 256).any (fun b => Config.default.formatOf (BitVec.ofNat 8 b) = some .move) = true ∧
    (List.range 256).countP (fun b => Config.default.formatOf (BitVec.ofNat 8 b) = some .screen) = 1 := by
  decide +kernel

theorem default_romValid : Config.default.romValid = true := by
  obtain ⟨hreserved, hmove⟩ := default_names
  obtain ⟨hsome, hone⟩ := default_formats
  simp only [Config.romValid, default_tableTotal, default_anchors, default_legal, default_specificFirst, hreserved, hmove,
    hsome, hone, Bool.and_true, BEq.rfl]

theorem defaultTable_length : defaultTable.length = 61 := rfl

theorem routines_length : routines.length = 61 := rfl

theorem defaultTable_getElem? {k : Nat} (hk : k < 61) : defaultTable[k]? = some (romEntry k) := by
  have hlt : k < defaultTable.length := hk
  rw [romEntry, List.getD_eq_getElem?_getD, List.getElem?_eq_getElem hlt, Option.getD_some]

theorem romEntry_mem {k : Nat} (hk : k < 61) : romEntry k ∈ defaultTable :=
  List.mem_of_getElem? (defaultTable_getElem? hk)

/-- Every entry of the default ROM has a routine (R55). -/
theorem defaultTable_format : ∀ d ∈ defaultTable, d.format ≠ .unknown := by decide

theorem defaultTable_covers_lo : ∀ d ∈ defaultTable, d.covers d.lo = true := by decide

/-- The four bytes of a format-1 group are in its range, and bit 0 is `W` (R53). -/
theorem defaultTable_covers_twoOpcode : ∀ d ∈ defaultTable, d.format = .twoOperand → ∀ imm w : Bool,
    d.covers (twoOpcode d.lo imm w) = true ∧ (twoOpcode d.lo imm w).getLsbD 0 = w := by decide +kernel

/-- The two bytes of a format-5 pair are in its range, and bit 0 is `W` (R53). -/
theorem defaultTable_covers_oneOpcode : ∀ d ∈ defaultTable, d.format = .oneOperand → ∀ w : Bool,
    d.covers (oneOpcode d.lo w) = true ∧ (oneOpcode d.lo w).getLsbD 0 = w := by decide +kernel

/-- The 32 bytes of a format-4 group are in its range (R53). -/
theorem defaultTable_covers_branchField : ∀ d ∈ defaultTable, d.format = .branch → ∀ high : BitVec 5,
    d.covers (d.lo ||| (0#3 ++ high)) = true := by decide +kernel

theorem romEntry_covers_moveOpcode : ∀ mode : BitVec 5, (romEntry 21).covers (moveOpcode mode) = true := by decide +kernel

/-- The bytes of the five rows of `XGPL` are in the ranges of their entries (R101 to R104). -/
theorem romEntry_covers_reserved : (∀ x : BitVec 2, (romEntry 20).covers (0b000101#6 ++ x) = true) ∧
    (∀ x : BitVec 3, (romEntry 20).covers (0b00011#5 ++ x) = true) ∧
    (∀ x : BitVec 3, (romEntry 36).covers (0b10011#5 ++ x) = true) ∧
    (∀ x : BitVec 2, (romEntry 57).covers (0b111100#6 ++ x) = true) ∧
    ∀ x : BitVec 2, (romEntry 60).covers (0b111111#6 ++ x) = true := by
  decide +kernel

end Sys2Proof
end

section
/-! How far each reader of the stream goes, and from it what a window decodes to under the default ROM. -/

namespace Sys2Proof

/-! ### How far a reader goes -/

/-- A reader looks at no byte after the next `n`: it fails at one of them or stops behind them (R52, R252). -/
def ReadsAtMost {α : Type} (n : Nat) (g : Stream → Except Nat (α × Stream)) : Prop :=
  ∀ t, match g t with
    | .error k => k < t.off + n
    | .ok (_, t') => t'.off ≤ t.off + n

theorem ReadsAtMost.error_lt {α : Type} {n : Nat} {g : Stream → Except Nat (α × Stream)} (hg : ReadsAtMost n g)
    {t : Stream} {k : Nat} (h : g t = .error k) : k < t.off + n := by
  have ht := hg t
  rwa [h] at ht

theorem ReadsAtMost.ok_le {α : Type} {n : Nat} {g : Stream → Except Nat (α × Stream)} (hg : ReadsAtMost n g)
    {t t' : Stream} {a : α} (h : g t = .ok (a, t')) : t'.off ≤ t.off + n := by
  have ht := hg t
  rwa [h] at ht

theorem ReadsAtMost.mono {α : Type} {n m : Nat} {g : Stream → Except Nat (α × Stream)} (hg : ReadsAtMost n g)
    (hnm : n ≤ m) : ReadsAtMost m g := by
  intro t
  rcases e : g t with k | ⟨a, t'⟩
  · exact (hg.error_lt e).trans_le (by omega)
  · exact (hg.ok_le e).trans (by omega)

theorem ReadsAtMost.pure {α : Type} (a : α) : ReadsAtMost 0 (fun t => .ok (a, t)) := fun _ => le_rfl

theorem ReadsAtMost.next8 : ReadsAtMost 1 Stream.next8 := by
  rintro ⟨_ | ⟨v, r⟩, n⟩
  · exact Nat.lt_succ_self n
  · exact le_rfl

/-- Reading one thing after another adds the bounds up. -/
theorem ReadsAtMost.bind {α β : Type} {n m : Nat} {g : Stream → Except Nat (α × Stream)}
    {h : α → Stream → Except Nat (β × Stream)} (hg : ReadsAtMost n g) (hh : ∀ a, ReadsAtMost m (h a)) :
    ReadsAtMost (n + m) (fun t => g t >>= fun p => h p.1 p.2) := by
  intro t
  rcases e : g t with k | ⟨a, t'⟩ <;> simp only [Bind.bind, Except.bind, e]
  · exact (hg.error_lt e).trans_le (by omega)
  · have hle := hg.ok_le e
    rcases e' : h a t' with k | ⟨b, t''⟩
    · exact ((hh a).error_lt e').trans_le (by omega)
    · exact ((hh a).ok_le e').trans (by omega)

theorem ReadsAtMost.next16 : ReadsAtMost 2 Stream.next16 :=
  .bind .next8 fun _ => .bind .next8 fun _ => .pure _

theorem ReadsAtMost.indexByte (b : Bool) : ReadsAtMost 1 (Stream.indexByte b) := by
  cases b
  · exact (ReadsAtMost.pure none).mono (by omega)
  · exact .bind .next8 fun _ => .pure _

theorem ReadsAtMost.afterSecond (hd l : Byte) : ReadsAtMost 2 (afterSecond hd l) := by
  unfold Sys2Proof.afterSecond
  by_cases hn : offsetNibble hd = 0xF#4
  · simp only [hn, if_true]
    exact .bind (h := fun e t => t.indexByte (indexedBit hd) >>= fun p =>
        .ok (SrcDst.far (vdpBit hd) (indirectBit hd) (l ++ e) p.1, p.2)) .next8 fun e =>
      .bind (h := fun ix t => .ok (SrcDst.far (vdpBit hd) (indirectBit hd) (l ++ e) ix, t)) (.indexByte _) fun _ => .pure _
  · simp only [hn, if_false]
    exact (ReadsAtMost.bind
      (h := fun ix t => .ok (SrcDst.near (vdpBit hd) (indirectBit hd) (offsetNibble hd ++ l) ix, t)) (.indexByte _)
      fun _ => .pure _).mono (by omega)

theorem ReadsAtMost.afterFirst (hd : Byte) : ReadsAtMost 3 (afterFirst hd) := by
  unfold Sys2Proof.afterFirst
  cases multiByte hd with
  | false => exact (ReadsAtMost.pure (SrcDst.short (hd.extractLsb' 0 7))).mono (by omega)
  | true => exact .bind (h := Sys2Proof.afterSecond hd) .next8 (.afterSecond hd)

theorem ReadsAtMost.srcDst : ReadsAtMost 4 Stream.srcDst := by
  rw [srcDst_after]
  exact .bind (h := Sys2Proof.afterFirst) .next8 .afterFirst

theorem ReadsAtMost.gromRef (b : Bool) : ReadsAtMost 3 (Stream.gromRef b) :=
  .bind .next16 fun _ => .bind (.indexByte _) fun _ => .pure _

theorem ReadsAtMost.source (i w : Bool) : ReadsAtMost 4 (Stream.source i w) := by
  cases i with
  | false =>
    have hoperand : ReadsAtMost 4 (fun t => do let (o, t) ← Stream.srcDst t; return (Source.operand o, t)) :=
      .bind .srcDst fun _ => .pure _
    cases w <;> exact hoperand
  | true =>
    cases w with
    | false => exact (ReadsAtMost.bind .next8 fun v => .pure (Source.lit8 v)).mono (by omega)
    | true => exact (ReadsAtMost.bind .next16 fun v => .pure (Source.lit16 v)).mono (by omega)

theorem ReadsAtMost.count (i : Bool) : ReadsAtMost 4 (Stream.count i) := by
  cases i with
  | false => exact .bind .srcDst fun _ => .pure _
  | true => exact (ReadsAtMost.bind .next16 fun v => .pure (Count.lit v)).mono (by omega)

theorem ReadsAtMost.slot (i b : Bool) : ReadsAtMost 4 (Stream.slot i b) := by
  cases i with
  | false => exact (ReadsAtMost.bind (.gromRef b) fun g => .pure (Slot.grom g)).mono (by omega)
  | true => exact .bind .srcDst fun _ => .pure _

/-! ### The decode routines -/

/-- The routines that the formats give (R228), one constructor for each layout of R53. -/
inductive FormatRoutine : Routine → Prop
  | none (mk : Byte → Instr) : FormatRoutine (readNone mk)
  | byteLit (mk : Byte → Instr) : FormatRoutine (readByteLit mk)
  | wordLit (mk : Word → Instr) : FormatRoutine (readWordLit mk)
  | branch (mk : BitVec 13 → Instr) : FormatRoutine (readBranch mk)
  | one (mk : Bool → SrcDst → Instr) : FormatRoutine (readOne mk)
  | two (mk : Bool → SrcDst → Source → Instr) : FormatRoutine (readTwo mk)
  | move : FormatRoutine readMove

theorem routines_formatRoutine : ∀ r ∈ routines, FormatRoutine r := by
  simp only [routines, routinesLow, routinesMiddle, routinesHigh, List.cons_append, List.nil_append, List.forall_mem_cons]
  repeat' constructor
  exact nofun

/-- A routine reads at most twelve bytes after the opcode byte (R52); only `MOVE` reads so many. -/
theorem FormatRoutine.readsAtMost {r : Routine} (h : FormatRoutine r) (op : Byte) : ReadsAtMost 12 (r op) := by
  cases h with
  | none mk => exact (ReadsAtMost.pure (mk op)).mono (by omega)
  | byteLit mk => exact (ReadsAtMost.bind .next8 fun v => .pure (mk v)).mono (by omega)
  | wordLit mk => exact (ReadsAtMost.bind .next16 fun v => .pure (mk v)).mono (by omega)
  | branch mk => exact (ReadsAtMost.bind .next8 fun lo => .pure (mk (op.extractLsb' 0 5 ++ lo))).mono (by omega)
  | one mk => exact (ReadsAtMost.bind .srcDst fun o => .pure (mk (wordFlag op) o)).mono (by omega)
  | two mk =>
    exact (ReadsAtMost.bind .srcDst fun dst => .bind (.source (immediateFlag op) (wordFlag op)) fun src =>
      .pure (mk (wordFlag op) dst src)).mono (by omega)
  | move =>
    exact .bind (.count _) fun a => .bind (.slot _ _) fun b => .bind (.slot _ _) fun c =>
      .pure (Instr.move (op.extractLsb' 0 5) a b c)

/-- Under the default ROM a window with an opcode byte is read by the routine of the entry the byte resolves to. -/
theorem decode_cons (op : Byte) (rest : List Byte) : ∃ i r, routines[i]? = some r ∧
    decode (op :: rest) = runRoutine i op rest := by
  obtain ⟨i, d, hlookup, hformat⟩ := lookup_of_tableTotal default_tableTotal op
  have hlookup : lookup defaultTable op = some (i, d) := hlookup
  obtain ⟨hi, -⟩ := List.getElem?_eq_some_iff.1 (lookup_getElem? hlookup)
  rw [defaultTable_length, ← routines_length] at hi
  exact ⟨i, _, List.getElem?_eq_getElem hi, by simp [decode, hlookup, hformat]⟩

/-- All that a routine can make of a window. -/
theorem runRoutine_cases {i : Nat} {r : Routine} (h : routines[i]? = some r) (op : Byte) (rest : List Byte) :
    (∃ k, r op ⟨rest, 1⟩ = .error k ∧ runRoutine i op rest = .truncated k) ∨
    ∃ ins t, r op ⟨rest, 1⟩ = .ok (ins, t) ∧ runRoutine i op rest = .instr ins t.off := by
  rcases hr : r op ⟨rest, 1⟩ with k | ⟨ins, t⟩
  · exact .inl ⟨k, rfl, by simp [runRoutine, h, hr]⟩
  · exact .inr ⟨ins, t, rfl, by simp [runRoutine, h, hr]⟩

/-- All that a window decodes to under the default ROM: an instruction, or an offset below 13 (R252). No byte is without a
routine (R55). -/
theorem decode_cases (bytes : List Byte) :
    (∃ i n, decode bytes = .instr i n) ∨ ∃ k, k ≤ 12 ∧ decode bytes = .truncated k := by
  cases bytes with
  | nil => exact .inr ⟨0, by omega, rfl⟩
  | cons op rest =>
    obtain ⟨i, r, hr, hdecode⟩ := decode_cons op rest
    rw [hdecode]
    rcases runRoutine_cases hr op rest with ⟨k, herror, hrun⟩ | ⟨ins, t, -, hrun⟩
    · have hroutine := routines_formatRoutine r (List.mem_of_getElem? hr)
      have hk : k < 1 + 12 := (hroutine.readsAtMost op).error_lt herror
      exact .inr ⟨k, by omega, hrun⟩
    · exact .inl ⟨ins, t.off, hrun⟩

end Sys2Proof
end

section
/-! What each format decoder leaves in the width flag; then the flag of every transaction, O37. -/

namespace Sys2Proof.Machine

/-! ### The width flag of a transaction -/

/-- All that a transaction that ends with `OK` has done (R228). -/
theorem transaction_ok {cfg : Config} {rq : Request} {r : Result} (h : transaction cfg rq = .ok r) :
    ∃ op rest i d f c, rq.bytes = op :: rest ∧ lookup cfg.optable op = some (i, d) ∧
      formatDecoder cfg d.format = some f ∧ f (op :: rest) (Context.start rq.address) = .ok c ∧
      r = okResult cfg i d op (Context.start rq.address) c := by
  rcases rq with ⟨a, _ | ⟨op, rest⟩⟩
  · cases h
  simp only [transaction] at h
  split at h
  case h_1 => cases h
  case h_2 i d hlookup =>
    split at h
    case h_1 => cases h
    case h_2 f hf =>
      split at h
      case h_1 => cases h
      case h_2 c hc =>
        cases h
        exact ⟨op, rest, i, d, f, c, rfl, hlookup, hf, hc, rfl⟩

/-- A reader that follows a reader of the stream leaves the width flag as it was. -/
theorem Lifts.wflag {α β : Type} {bytes : List Byte} {f : Context → Except Nat (β × Context)}
    {g : Stream → Except Nat (α × Stream)} {k : α → β} (h : Lifts bytes f g k) {c c' : Context} {b : β}
    (hf : f c = .ok (b, c')) : c'.wflag = c.wflag := by
  rcases h.cases c with ⟨e, -, hc⟩ | ⟨a, n, -, hc⟩
  · cases hc.symm.trans hf
  · cases hc.symm.trans hf
    rfl

theorem formatSource_wflag {bytes : List Byte} {imm : Bool} {c c' : Context} {b : Operand × Text}
    (hf : formatSource bytes imm c = .ok (b, c')) : c'.wflag = c.wflag := by
  have h := formatSource_lifts bytes imm c.wflag c rfl
  split at h
  case h_1 => cases h.symm.trans hf
  case h_2 =>
    cases h.1.symm.trans hf
    rfl

/-- Formats 0, 3 and 7 leave the width flag as it was. -/
theorem formatNone_wflag {bytes : List Byte} {c c' : Context} (h : formatNone bytes c = .ok c') : c'.wflag = c.wflag := by
  obtain ⟨⟨op, c1⟩, h1, h⟩ := except_bind_ok h
  cases h
  exact (Context.next8_lifts bytes).wflag (c' := c1) h1

theorem formatByteLit_wflag {bytes : List Byte} {c c' : Context} (h : formatByteLit bytes c = .ok c') :
    c'.wflag = c.wflag := by
  obtain ⟨⟨op, c1⟩, h1, h⟩ := except_bind_ok h
  obtain ⟨⟨v, c2⟩, h2, h⟩ := except_bind_ok h
  cases h
  exact ((Context.next8_lifts bytes).wflag h2).trans ((Context.next8_lifts bytes).wflag h1)

theorem formatWordLit_wflag {bytes : List Byte} {c c' : Context} (h : formatWordLit bytes c = .ok c') :
    c'.wflag = c.wflag := by
  obtain ⟨⟨op, c1⟩, h1, h⟩ := except_bind_ok h
  obtain ⟨⟨v, c2⟩, h2, h⟩ := except_bind_ok h
  cases h
  exact ((Context.next16_lifts bytes).wflag h2).trans ((Context.next8_lifts bytes).wflag h1)

theorem formatBranch_wflag {bytes : List Byte} {c c' : Context} (h : formatBranch bytes c = .ok c') :
    c'.wflag = c.wflag := by
  obtain ⟨⟨op, c1⟩, h1, h⟩ := except_bind_ok h
  obtain ⟨⟨nx, c2⟩, h2, h⟩ := except_bind_ok h
  cases h
  exact ((Context.next8_lifts bytes).wflag h2).trans ((Context.next8_lifts bytes).wflag h1)

theorem formatMove_wflag {cfg : Config} {bytes : List Byte} {c c' : Context} (h : formatMove cfg bytes c = .ok c') :
    c'.wflag = c.wflag := by
  obtain ⟨⟨op, c1⟩, h1, h⟩ := except_bind_ok h
  obtain ⟨⟨a, c2⟩, h2, h⟩ := except_bind_ok h
  obtain ⟨⟨b, c3⟩, h3, h⟩ := except_bind_ok h
  obtain ⟨⟨d, c4⟩, h4, h⟩ := except_bind_ok h
  cases h
  calc c4.wflag = c3.wflag := (Context.gromOperand_lifts bytes _ _).wflag h4
    _ = c2.wflag := (Context.gromOperand_lifts bytes _ _).wflag h3
    _ = c1.wflag := (formatCount_lifts bytes _).wflag h2
    _ = c.wflag := (Context.next8_lifts bytes).wflag h1

/-- Format 5 writes bit 0 of the opcode byte to the width flag. -/
theorem formatOne_wflag {op : Byte} {rest : List Byte} {a : Word} {c : Context}
    (h : formatOne (op :: rest) (Context.start a) = .ok c) : c.wflag = op.getLsbD 0 := by
  obtain ⟨⟨o, c1⟩, h1, h⟩ := except_bind_ok h
  cases h1
  obtain ⟨⟨t, c2⟩, h2, h⟩ := except_bind_ok h
  cases h
  exact (Context.srcDst_lifts _).wflag h2

/-- Format 1 writes bit 0 of the opcode byte to the width flag. -/
theorem formatTwo_wflag {op : Byte} {rest : List Byte} {a : Word} {c : Context}
    (h : formatTwo (op :: rest) (Context.start a) = .ok c) : c.wflag = op.getLsbD 0 := by
  obtain ⟨⟨o, c1⟩, h1, h⟩ := except_bind_ok h
  cases h1
  obtain ⟨⟨dst, c2⟩, h2, h⟩ := except_bind_ok h
  obtain ⟨⟨src, c3⟩, h3, h⟩ := except_bind_ok h
  cases h
  exact (formatSource_wflag h3).trans ((Context.srcDst_lifts _).wflag h2)

/-- What each format decoder leaves in the width flag of a fresh context (R17). -/
theorem formatDecoder_wflag {cfg : Config} {fmt : Format} {f : List Byte → Context → Except Nat Context}
    (hf : formatDecoder cfg fmt = some f) {op : Byte} {rest : List Byte} {a : Word} {c : Context}
    (h : f (op :: rest) (Context.start a) = .ok c) : c.wflag = (writesWidth fmt && op.getLsbD 0) := by
  cases fmt with
  | unknown => cases hf
  | literal lit =>
    cases lit with
    | byte => cases hf; exact formatByteLit_wflag h
    | word => cases hf; exact formatWordLit_wflag h
  | reserved | noOperand | screen => cases hf; exact formatNone_wflag h
  | twoOperand => cases hf; exact formatTwo_wflag h
  | branch => cases hf; exact formatBranch_wflag h
  | oneOperand => cases hf; exact formatOne_wflag h
  | move => cases hf; exact formatMove_wflag h

/-- Settles O37: the record takes its flag from the format decoder (`formatDecoder_wflag`), its opcode from the window. -/
theorem widthFlagFollowsFormatAndBitZero : Obligations.WidthFlagFollowsFormatAndBitZero := by
  intro cfg rq r h
  obtain ⟨op, rest, i, d, f, c, hbytes, -, hf, hc, rfl⟩ := transaction_ok h
  exact ⟨formatDecoder_wflag hf hc, by rw [hbytes]; rfl⟩

end Sys2Proof.Machine
end

section
/-! The meanings make sound records and the step keeps the invariant; then the statements of the state: O1, O4 to O7, O15 and
O47. -/

namespace Sys2Proof

/-! ### The legal values of operands -/

/-- An index cell lies in the scratchpad (R86). -/
theorem indexBounded_map_indexCell (ix : Option Byte) : Machine.indexBounded (ix.map indexCell) := by
  cases ix with
  | none => trivial
  | some x =>
    have hx : (x.setWidth 16).toNat = x.toNat := by simp; omega
    have hcell : (indexCell x).toNat = 0x8300 + x.toNat := by
      rw [indexCell, BitVec.toNat_add, hx]
      simp [scratchBase]; omega
    refine ⟨BitVec.le_def.2 ?_, BitVec.le_def.2 ?_⟩ <;> rw [hcell] <;> simp; omega

theorem SrcDst.operand_bounded (o : SrcDst) : o.operand.bounded := by
  cases o with
  | short a => trivial
  | near v i off ix => exact indexBounded_map_indexCell ix
  | far v i addr ix => exact indexBounded_map_indexCell ix

theorem Source.operandOf_bounded (s : Source) : s.operandOf.bounded := by
  cases s with
  | operand o => exact o.operand_bounded
  | lit8 v => trivial
  | lit16 v => trivial

theorem Count.operandOf_bounded (a : Count) : a.operandOf.bounded := by
  cases a with
  | lit v => trivial
  | operand o => exact o.operand_bounded

theorem Slot.operandOf_bounded (b : Slot) : b.operandOf.bounded := by
  cases b with
  | operand o => exact o.operand_bounded
  | grom g => exact indexBounded_map_indexCell g.index

/-- Under a mask of at most 7 the rendering as a register gives a register number, and leaves the other operands (R206). -/
theorem Machine.Operand.trim_bounded {mask : Word} (hmask : mask.toNat ≤ 7) {o : Machine.Operand} (h : o.bounded) :
    (o.trim mask).bounded := by
  have hand (a : Word) : (a &&& mask).toNat ≤ 7 := by
    rw [BitVec.toNat_and]
    exact Nat.and_le_right.trans hmask
  cases o with
  | mem sp i a e ix => exact hand a
  | grom a ix => exact hand a
  | imm8 v => exact h
  | imm16 v => exact h
  | vreg n => exact h
  | target a => exact h

theorem Machine.slotCOperand_bounded (op : Byte) (c : Slot) : (Machine.slotCOperand Config.default op c).bounded := by
  unfold Machine.slotCOperand
  split
  · exact Machine.Operand.trim_bounded (by decide) c.operandOf_bounded
  · exact c.operandOf_bounded

end Sys2Proof

namespace Sys2Proof.Machine

/-! ### The records of the meanings -/

/-- Run in the context at the start of a transaction, the meaning ends it with a sound record. -/
def SoundMeaning (f : State → Host.Outcome State Fault Refusal) : Prop :=
  ∀ (s : State) (a : Word), s.ctx = some (Context.start a) → ∃ r : Result, r.Sound ∧ f s = .next (s.finish (.ok r))

/-- What the rules ask of a completion: an opcode byte of the entry, the length of its format (R52), a width flag that
follows the opcode byte in formats 1 and 5 and is not written elsewhere (R17), the format's number of operands, all legal. -/
theorem complete_sound {k : Nat} (hk : k < 61) {op : Byte} {n : Nat} {w : Option Bool} {ops : Context → List Operand}
    (hcovers : (romEntry k).covers op = true)
    (hlength : (lengthRange (romEntry k).format).1 ≤ n ∧ n ≤ (lengthRange (romEntry k).format).2)
    (hwidth : w.getD false = (writesWidth (romEntry k).format && op.getLsbD 0))
    (harity : ∀ c, (ops c).length = arity (romEntry k).format) (hlegal : ∀ c, ∀ o ∈ ops c, o.bounded) :
    SoundMeaning (complete k op n w ops) := by
  intro s a hctx
  refine ⟨_, ?_, complete_of_ctx hctx k op n w ops⟩
  rw [okResult_decoded]
  exact {
    entry := ⟨k, romEntry k, rfl, defaultTable_getElem? hk, hcovers, rfl, rfl⟩
    routine := defaultTable_format _ (romEntry_mem hk)
    length := hlength
    width := hwidth
    operands := harity _
    legal := hlegal _
    optext := rfl
    line := ⟨a, rfl⟩ }

/-- A meaning of one byte, no operand and no flag: formats 0, 3 and 7 (R100, R150, R220). -/
theorem complete_single_sound {k : Nat} (hk : k < 61) {op : Byte} (hcovers : (romEntry k).covers op = true)
    (hformat : (romEntry k).format = .reserved ∨ (romEntry k).format = .noOperand ∨ (romEntry k).format = .screen) :
    SoundMeaning (complete k op 1 none fun _ => []) := by
  apply complete_sound hk hcovers
  case hlength => rcases hformat with h | h | h <;> simp [h, lengthRange]
  case hwidth => rcases hformat with h | h | h <;> simp [h, writesWidth]
  case harity => rcases hformat with h | h | h <;> simp [h, arity]
  case hlegal => simp

theorem plainOp_sound {k : Nat} (hk : k < 61) (hformat : (romEntry k).format = .noOperand) : SoundMeaning (plainOp k) :=
  complete_single_sound hk (defaultTable_covers_lo _ (romEntry_mem hk)) (.inr (.inl hformat))

theorem screenOp_sound {k : Nat} (hk : k < 61) (hformat : (romEntry k).format = .screen) : SoundMeaning (screenOp k) :=
  complete_single_sound hk (defaultTable_covers_lo _ (romEntry_mem hk)) (.inr (.inr hformat))

theorem reservedOp_sound {k : Nat} (hk : k < 61) (hformat : (romEntry k).format = .reserved) {op : Byte}
    (hcovers : (romEntry k).covers op = true) : SoundMeaning (reservedOp k op) :=
  complete_single_sound hk hcovers (.inl hformat)

theorem byteLiteralOp_sound {k : Nat} (hk : k < 61) (hformat : (romEntry k).format = .literal .byte) (v : Byte) :
    SoundMeaning (byteLiteralOp k v) := by
  apply complete_sound hk (defaultTable_covers_lo _ (romEntry_mem hk)) <;>
    simp [hformat, lengthRange, writesWidth, arity, Operand.bounded]

theorem wordLiteralOp_sound {k : Nat} (hk : k < 61) (hformat : (romEntry k).format = .literal .word) (v : Word) :
    SoundMeaning (wordLiteralOp k v) := by
  apply complete_sound hk (defaultTable_covers_lo _ (romEntry_mem hk)) <;>
    simp [hformat, lengthRange, writesWidth, arity, Operand.bounded]

theorem branchOp_sound {k : Nat} (hk : k < 61) (hformat : (romEntry k).format = .branch) (disp : BitVec 13) :
    SoundMeaning (branchOp k disp) := by
  apply complete_sound hk (defaultTable_covers_branchField _ (romEntry_mem hk) hformat _) <;>
    simp [hformat, lengthRange, writesWidth, arity, Operand.bounded]

theorem oneOperandOp_sound {k : Nat} (hk : k < 61) (hformat : (romEntry k).format = .oneOperand) (w : Bool) (o : SrcDst) :
    SoundMeaning (oneOperandOp k w o) := by
  obtain ⟨hcovers, hbit⟩ := defaultTable_covers_oneOpcode _ (romEntry_mem hk) hformat w
  have ho := o.size_bounds
  apply complete_sound hk hcovers
  case hlength => simp only [hformat, lengthRange]; omega
  case hwidth => rw [hformat, hbit]; rfl
  case harity => simp [hformat, arity]
  case hlegal => simp [o.operand_bounded]

theorem twoOperandOp_sound {k : Nat} (hk : k < 61) (hformat : (romEntry k).format = .twoOperand) (w : Bool) (dst : SrcDst)
    (src : Source) : SoundMeaning (twoOperandOp k w dst src) := by
  obtain ⟨hcovers, hbit⟩ := defaultTable_covers_twoOpcode _ (romEntry_mem hk) hformat src.isLit w
  have hdst := dst.size_bounds
  have hsrc := src.size_bounds
  apply complete_sound hk hcovers
  case hlength => simp only [hformat, lengthRange]; omega
  case hwidth => rw [hformat, hbit]; rfl
  case harity => simp [hformat, arity]
  case hlegal => simp [src.operandOf_bounded, dst.operand_bounded]

theorem execMove_sound (mode : BitVec 5) (a : Count) (b c : Slot) : SoundMeaning (execMove mode a b c) := by
  have ha := a.size_bounds
  have hb := b.size_bounds
  have hc := c.size_bounds
  have hformat : (romEntry 21).format = .move := rfl
  apply complete_sound (by omega) (romEntry_covers_moveOpcode mode)
  case hlength => simp only [hformat, lengthRange]; omega
  case hwidth => simp [hformat, writesWidth]
  case harity => simp [hformat, arity]
  case hlegal => simp [a.operandOf_bounded, b.operandOf_bounded, slotCOperand_bounded]

/-- Every instruction's meaning, by its format. -/
theorem exec_sound (i : Instr) : SoundMeaning (exec i) := by
  obtain ⟨hcovers14, hcovers18, hcovers98, hcoversF0, hcoversFC⟩ := romEntry_covers_reserved
  cases i
  case rtn | rtnc | scan | h | gt | exit | carry | ovf | cont | exec | rtnb | rtgr => exact plainOp_sound (by decide) rfl
  case fmt => exact screenOp_sound (by decide) rfl
  case xgpl14 x => exact reservedOp_sound (by decide) rfl (hcovers14 x)
  case xgplF0 x => exact reservedOp_sound (by decide) rfl (hcoversF0 x)
  case xgplFC x => exact reservedOp_sound (by decide) rfl (hcoversFC x)
  case xgpl18 x => exact reservedOp_sound (by decide) rfl (hcovers18 x)
  case xgpl98 x => exact reservedOp_sound (by decide) rfl (hcovers98 x)
  case rand v | back v | all v | parse v | xml v => exact byteLiteralOp_sound (by decide) rfl v
  case b v | call v => exact wordLiteralOp_sound (by decide) rfl v
  case br disp | bs disp => exact branchOp_sound (by decide) rfl disp
  case move mode a b c => exact execMove_sound mode a b c
  case abs w o | neg w o | inv w o | clr w o | fetch w o | case w o | push w o | cz w o | inc w o | dec w o | inct w o |
      dect w o =>
    exact oneOperandOp_sound (by decide) rfl w o
  case add w dst src | sub w dst src | mul w dst src | div w dst src | and w dst src | or w dst src | xor w dst src |
      st w dst src | ex w dst src | ch w dst src | che w dst src | cgt w dst src | cge w dst src | ceq w dst src |
      clog w dst src | sra w dst src | sll w dst src | srl w dst src | src w dst src | coinc w dst src | io w dst src |
      swgr w dst src =>
    exact twoOperandOp_sound (by decide) rfl w dst src

/-! ### The step and the invariant -/

/-- A transaction handed over ends with a sound outcome. -/
theorem step_sound {s : State} {rq : Request} (h : s.request = some rq) :
    ∃ o : TxOutcome, o.Sound ∧ step s = .next ((s.begin rq).finish o) := by
  rw [step_of_request h]
  rcases decode_cases rq.bytes with ⟨i, n, hdecode⟩ | ⟨k, hk, hdecode⟩ <;> rw [hdecode]
  · obtain ⟨r, hr, hexec⟩ := exec_sound i (s.begin rq) rq.address (s.begin_ctx rq)
    exact ⟨.ok r, hr, hexec⟩
  · exact ⟨.truncated k, hk, rfl⟩

/-- Between transactions, with a sound outcome returned, the state is safe. -/
theorem finish_safe (s : State) {o : TxOutcome} (h : o.Sound) : (s.finish o).Safe :=
  ⟨rfl, fun _ ho => Option.some.inj ho ▸ h⟩

/-! ### The statements -/

/-- Settles O7: an idle step keeps the state; any other ends its transaction with a sound outcome (`step_sound`). -/
theorem everyStepKeepsSafety : Obligations.EveryStepKeepsSafety := by
  intro s t hsafe hstep
  cases hrq : s.request with
  | none =>
    obtain rfl : s = t := Host.Outcome.next.inj ((step_of_no_request hrq).symm.trans hstep)
    exact hsafe
  | some rq =>
    obtain ⟨o, ho, hnext⟩ := step_sound hrq
    obtain rfl : (s.begin rq).finish o = t := Host.Outcome.next.inj (hnext.symm.trans hstep)
    exact finish_safe _ ho

/-- Settles O6: after construction there is neither a context nor an outcome. -/
theorem safetyHoldsAtReset : Obligations.SafetyHoldsAtReset := ⟨State.reset_ctx, nofun⟩

/-- Settles O4. -/
theorem resetHasNoContextAndNoOutput : Obligations.ResetHasNoContextAndNoOutput := ⟨State.reset_ctx, State.reset_outcome⟩

/-- Settles O5, rule by rule of the default ROM. -/
theorem romMeetsItsRulesAtReset : Obligations.RomMeetsItsRulesAtReset :=
  ⟨default_tableTotal, default_anchors, default_romValid⟩

/-- Settles O15: both sides are the position of the first covering entry (`lookup_index`). -/
theorem flatRomAgreesWithScan : Obligations.FlatRomAgreesWithScan := by
  intro table op
  simp [flatRom, lookup_index, List.getElem?_range op.isLt]

/-- Settles O1: the context at the start of a transaction, its fields written out. -/
theorem stepRunsDecodedInstruction : Obligations.StepRunsDecodedInstruction := by
  intro s rq i n hrq hdecode
  rw [step_of_request hrq, hdecode]
  rfl

/-- Settles O47: every meaning is a completion (`exec_complete`), which faults without a context. -/
theorem execNeedsTransaction : Obligations.ExecNeedsTransaction := by
  intro i s hctx
  obtain ⟨k, op, n, w, ops, hexec, -⟩ := exec_complete i
  rw [hexec, complete_of_no_ctx hctx]

end Sys2Proof.Machine
end

section
/-! What decodes to an instruction is its encoding: each routine of the default ROM undoes `encode`; then O11. -/

namespace Sys2Proof

/-! ### The opcode byte of a covered entry -/

/-- What a lookup finds covers the opcode byte (R225). -/
theorem lookupFrom_covers {op : Byte} {n i : Nat} {table : List Descriptor} {d : Descriptor}
    (h : lookupFrom op n table = some (i, d)) : d.covers op = true := by
  induction table generalizing n with
  | nil => cases h
  | cons e es ih =>
    rw [lookupFrom] at h
    split at h
    case isTrue hcovers =>
      cases h
      exact hcovers
    case isFalse => exact ih h

theorem lookup_covers {op : Byte} {i : Nat} {table : List Descriptor} {d : Descriptor}
    (h : lookup table op = some (i, d)) : d.covers op = true := lookupFrom_covers h

/-- A range of one byte covers that byte alone. -/
theorem Descriptor.eq_of_covers {d : Descriptor} (hsingle : d.hi = d.lo) {op : Byte} (h : d.covers op = true) :
    op = d.lo := by
  simp only [Descriptor.covers, hsingle, Bool.and_eq_true, decide_eq_true_eq] at h
  exact BitVec.le_antisymm h.2 h.1

/-- A byte of a format-1 group is the group's first byte with the byte's own `I` and `W` (R53). -/
theorem defaultTable_twoOpcode : ∀ d ∈ defaultTable, d.format = .twoOperand → ∀ op : Byte, d.covers op = true →
    twoOpcode d.lo (immediateFlag op) (wordFlag op) = op := by decide +kernel

/-- A byte of a format-5 pair is the pair's first byte with the byte's own `W` (R53). -/
theorem defaultTable_oneOpcode : ∀ d ∈ defaultTable, d.format = .oneOperand → ∀ op : Byte, d.covers op = true →
    oneOpcode d.lo (wordFlag op) = op := by decide +kernel

/-- A byte of a format-4 group is the group's first byte with the byte's own displacement bits (R53). -/
theorem defaultTable_branchField : ∀ d ∈ defaultTable, d.format = .branch → ∀ op : Byte, d.covers op = true →
    d.lo ||| (0#3 ++ op.extractLsb' 0 5) = op := by decide +kernel

/-- A byte of `MOVE` is that of its own mode field (R201). -/
theorem romEntry_moveOpcode : ∀ op : Byte, (romEntry 21).covers op = true → moveOpcode (op.extractLsb' 0 5) = op := by
  decide +kernel

theorem fields_of_displacement (high : BitVec 5) (low : Byte) :
    (high ++ low).extractLsb' 8 5 = high ∧ (high ++ low).extractLsb' 0 8 = low := by
  constructor <;> apply BitVec.eq_of_toNat_eq <;> rw [field_toNat, append_toNat] <;> omega

/-! ### The routines -/

/-- On the opcode bytes of entry `k`, what the routine answers is a well-formed instruction, whose bytes are the opcode byte
and those the routine used. -/
def ReadsEncoding (k : Nat) (r : Routine) : Prop :=
  ∀ (op : Byte) (t t' : Stream) (i : Instr), (romEntry k).covers op = true → r op t = .ok (i, t') →
    i.wf = true ∧ op :: t.rest = encode i ++ t'.rest ∧ t'.off + 1 = t.off + (encode i).length

theorem ReadsEncoding.none {k : Nat} {mk : Byte → Instr} (hwf : ∀ op, (romEntry k).covers op = true → (mk op).wf = true)
    (hencode : ∀ op, (romEntry k).covers op = true → encode (mk op) = [op]) : ReadsEncoding k (readNone mk) := by
  intro op t t' i hcovers h
  cases h
  rw [hencode op hcovers]
  exact ⟨hwf op hcovers, rfl, rfl⟩

theorem ReadsEncoding.byteLit {k : Nat} {mk : Byte → Instr} (hsingle : (romEntry k).hi = (romEntry k).lo)
    (hwf : ∀ v, (mk v).wf = true) (hencode : ∀ v, encode (mk v) = [(romEntry k).lo, v]) :
    ReadsEncoding k (readByteLit mk) := by
  intro op t t' i hcovers h
  obtain ⟨⟨v, t1⟩, h1, h⟩ := except_bind_ok h
  cases h
  obtain ⟨hrest, hoff⟩ := Stream.next8_ok h1
  rw [hencode, ← Descriptor.eq_of_covers hsingle hcovers, hrest, hoff]
  exact ⟨hwf v, rfl, rfl⟩

theorem ReadsEncoding.wordLit {k : Nat} {mk : Word → Instr} (hsingle : (romEntry k).hi = (romEntry k).lo)
    (hwf : ∀ v, (mk v).wf = true) (hencode : ∀ v, encode (mk v) = (romEntry k).lo :: encodeWord v) :
    ReadsEncoding k (readWordLit mk) := by
  intro op t t' i hcovers h
  obtain ⟨⟨v, t1⟩, h1, h⟩ := except_bind_ok h
  cases h
  obtain ⟨hrest, hoff⟩ := Stream.next16_ok h1
  rw [hencode, ← Descriptor.eq_of_covers hsingle hcovers, hrest, hoff]
  exact ⟨hwf v, rfl, rfl⟩

theorem ReadsEncoding.branch {k : Nat} (hk : k < 61) {mk : BitVec 13 → Instr} (hformat : (romEntry k).format = .branch)
    (hwf : ∀ disp, (mk disp).wf = true) (hencode : ∀ disp, encode (mk disp) = encodeBranch (romEntry k).lo disp) :
    ReadsEncoding k (readBranch mk) := by
  intro op t t' i hcovers h
  obtain ⟨⟨low, t1⟩, h1, h⟩ := except_bind_ok h
  cases h
  obtain ⟨hrest, hoff⟩ := Stream.next8_ok h1
  obtain ⟨hhigh, hlow⟩ := fields_of_displacement (op.extractLsb' 0 5) low
  have hop := defaultTable_branchField _ (romEntry_mem hk) hformat op hcovers
  rw [hencode, encodeBranch, branchOpcode, hhigh, hlow, hop, hrest, hoff]
  exact ⟨hwf _, rfl, rfl⟩

theorem ReadsEncoding.one {k : Nat} (hk : k < 61) {mk : Bool → SrcDst → Instr} (hformat : (romEntry k).format = .oneOperand)
    (hwf : ∀ w o, (mk w o).wf = o.wf) (hencode : ∀ w o, encode (mk w o) = encodeOne (romEntry k).lo w o) :
    ReadsEncoding k (readOne mk) := by
  intro op t t' i hcovers h
  obtain ⟨⟨o, t1⟩, h1, h⟩ := except_bind_ok h
  cases h
  obtain ⟨ho, hrest, hoff⟩ := Stream.srcDst_ok h1
  have hop := defaultTable_oneOpcode _ (romEntry_mem hk) hformat op hcovers
  rw [hencode, encodeOne, hop, hrest, hoff, List.length_cons, o.encode_length]
  exact ⟨(hwf _ _).trans ho, rfl, rfl⟩

theorem ReadsEncoding.two {k : Nat} (hk : k < 61) {mk : Bool → SrcDst → Source → Instr}
    (hformat : (romEntry k).format = .twoOperand) (hwf : ∀ w dst src, (mk w dst src).wf = (dst.wf && src.wf w))
    (hencode : ∀ w dst src, encode (mk w dst src) = encodeTwo (romEntry k).lo w dst src) :
    ReadsEncoding k (readTwo mk) := by
  intro op t t' i hcovers h
  obtain ⟨⟨dst, t1⟩, h1, h⟩ := except_bind_ok h
  obtain ⟨⟨src, t2⟩, h2, h⟩ := except_bind_ok h
  cases h
  obtain ⟨hdst, hrest1, hoff1⟩ := Stream.srcDst_ok h1
  obtain ⟨hsrc, hlit, hrest2, hoff2⟩ := Stream.source_ok h2
  have hop := defaultTable_twoOpcode _ (romEntry_mem hk) hformat op hcovers
  rw [hencode, hwf, encodeTwo, hlit, hop]
  refine ⟨by rw [hdst, hsrc]; rfl, by rw [hrest1, hrest2]; simp, ?_⟩
  rw [List.length_cons, List.length_append, dst.encode_length, src.encode_length]
  omega

theorem ReadsEncoding.move : ReadsEncoding 21 readMove := by
  intro op t t' i hcovers h
  obtain ⟨⟨a, t1⟩, h1, h⟩ := except_bind_ok h
  obtain ⟨⟨b, t2⟩, h2, h⟩ := except_bind_ok h
  obtain ⟨⟨c, t3⟩, h3, h⟩ := except_bind_ok h
  cases h
  obtain ⟨ha, hrest1, hoff1⟩ := Stream.count_ok h1
  obtain ⟨hb, hrest2, hoff2⟩ := Stream.slot_ok h2
  obtain ⟨hc, hrest3, hoff3⟩ := Stream.slot_ok h3
  rw [Instr.wf, moveWf, encode, romEntry_moveOpcode op hcovers]
  refine ⟨by rw [ha, hb, hc]; rfl, by rw [hrest1, hrest2, hrest3]; simp, ?_⟩
  rw [List.length_cons, List.length_append, List.length_append, a.encode_length, b.encode_length, c.encode_length]
  omega

/-- Every routine of the default ROM, by its format. -/
theorem routines_readEncoding : ∀ (k : Nat) (hk : k < routines.length), ReadsEncoding k routines[k]
  | 0, _ | 1, _ | 3, _ | 8, _ | 9, _ | 10, _ | 11, _ | 12, _ | 13, _ | 16, _ | 17, _ | 18, _ | 19, _
  | 20, _ | 36, _ | 57, _ | 60, _ => .none (by decide +kernel) (by decide +kernel)
  | 2, _ | 4, _ | 7, _ | 14, _ | 15, _ => .byteLit rfl (fun _ => rfl) fun _ => rfl
  | 5, _ | 6, _ => .wordLit rfl (fun _ => rfl) fun _ => rfl
  | 21, _ => .move
  | 22, hk | 23, hk => .branch hk rfl (fun _ => rfl) fun _ => rfl
  | 24, hk | 25, hk | 26, hk | 27, hk | 28, hk | 29, hk | 30, hk | 31, hk | 32, hk | 33, hk | 34, hk | 35, hk =>
    .one hk rfl (fun _ _ => rfl) fun _ _ => rfl
  | 37, hk | 38, hk | 39, hk | 40, hk | 41, hk | 42, hk | 43, hk | 44, hk | 45, hk | 46, hk | 47, hk | 48, hk | 49, hk
  | 50, hk | 51, hk | 52, hk | 53, hk | 54, hk | 55, hk | 56, hk | 58, hk | 59, hk =>
    .two hk rfl (fun _ _ _ => rfl) fun _ _ _ => rfl
  | k + 61, hk => absurd hk (by rw [routines_length]; omega)

/-- What decodes to an instruction was read by the routine of an entry that covers the opcode byte. -/
theorem decode_instr {op : Byte} {rest : List Byte} {i : Instr} {n : Nat} (h : decode (op :: rest) = .instr i n) :
    ∃ (k : Nat) (hk : k < routines.length) (t : Stream), (romEntry k).covers op = true ∧
      routines[k] op ⟨rest, 1⟩ = .ok (i, t) ∧ n = t.off := by
  obtain ⟨k, d, hlookup, hformat⟩ := lookup_of_tableTotal default_tableTotal op
  have hlookup : lookup defaultTable op = some (k, d) := hlookup
  have hentry := lookup_getElem? hlookup
  obtain ⟨hk, -⟩ := List.getElem?_eq_some_iff.1 hentry
  have hk : k < routines.length := hk
  obtain rfl : romEntry k = d := Option.some.inj ((defaultTable_getElem? hk).symm.trans hentry)
  have hrun : decode (op :: rest) = runRoutine k op rest := by simp [decode, hlookup, hformat]
  rw [hrun] at h
  rcases runRoutine_cases (List.getElem?_eq_getElem hk) op rest with ⟨j, -, hj⟩ | ⟨ins, t, hread, ht⟩
  · cases hj.symm.trans h
  · cases ht.symm.trans h
    exact ⟨k, hk, t, lookup_covers hlookup, hread, rfl⟩

/-- Settles O11: the opcode byte is one of the entry that its lookup finds (`decode_instr`), and on those bytes the entry's
routine reads an encoding (`routines_readEncoding`). -/
theorem encodeOfDecodeIsIdentity : Obligations.EncodeOfDecodeIsIdentity := by
  intro bytes i n h
  cases bytes with
  | nil => cases h
  | cons op rest =>
    obtain ⟨k, hk, t, hcovers, hread, rfl⟩ := decode_instr h
    obtain ⟨hwf, hbytes, hlength⟩ := routines_readEncoding k hk op _ _ _ hcovers hread
    exact ⟨hwf, Nat.add_right_cancel (hlength.trans (Nat.add_comm 1 _)), t.rest, hbytes⟩

end Sys2Proof
end

section
/-! Every format decoder as one reader of the stream; from it the lengths of a transaction and what the address reaches: O34 and
O36. -/

namespace Sys2Proof.Machine

/-! ### What a format decoder reads -/

/-- What a format reads after the opcode byte, in stream order, and the operands it makes of it, in the record's order, for an
instruction in the given page (R100 to R220). -/
def readOperands (cfg : Config) (page : Word) (op : Byte) : Format → Stream → Except Nat (List Operand × Stream)
  | .unknown, t | .reserved, t | .noOperand, t | .screen, t => .ok ([], t)
  | .literal .byte, t => do
    let (v, t) ← t.next8
    return ([.imm8 v], t)
  | .literal .word, t => do
    let (v, t) ← t.next16
    return ([.imm16 v], t)
  | .branch, t => do
    let (low, t) ← t.next8
    return ([.target (branchTarget page (op.extractLsb' 0 5 ++ low))], t)
  | .oneOperand, t => do
    let (o, t) ← t.srcDst
    return ([o.operand], t)
  | .twoOperand, t => do
    let (dst, t) ← t.srcDst
    let (src, t) ← t.source (immediateFlag op) (wordFlag op)
    return ([src.operandOf, dst.operand], t)
  | .move, t => do
    let (a, t) ← t.count (cfg.moveMap.numimmOf op)
    let (b, t) ← t.slot (cfg.moveMap.selBOf op) (cfg.moveMap.idxBOf op)
    let (c, t) ← t.slot (cfg.moveMap.selCOf op) (cfg.moveMap.idxCOf op)
    return ([a.operandOf, b.operandOf, slotCOperand cfg op c], t)

/-- The context that a format decoder leaves: the cursor past the instruction, the operands and their text, and the width
flag, which only formats 1 and 5 write (R17). -/
def contextAfter (a : Word) (op : Byte) (fmt : Format) (ops : List Operand) (n : Nat) : Context :=
  { Context.start a with
    cur := n, wflag := writesWidth fmt && wordFlag op, text := joinComma (ops.map Operand.text), ops := ops }

/-- The format decoder `f`, run on a fresh context, does what `readOperands` does on the bytes after the opcode byte. -/
def Reads (cfg : Config) (fmt : Format) (f : List Byte → Context → Except Nat Context) : Prop :=
  ∀ (a : Word) (op : Byte) (rest : List Byte), f (op :: rest) (Context.start a) =
    (readOperands cfg (a &&& pageMask) op fmt ⟨rest, 1⟩).map fun p => contextAfter a op fmt p.1 p.2.off

/-- The displacement of R170 is the low five bits of the opcode byte and the next byte. -/
theorem displacement_eq (op low : Byte) :
    (op ++ low : Word) &&& dispMask = (op.extractLsb' 0 5 ++ low).setWidth 16 := by
  apply BitVec.eq_of_getLsbD_eq
  intro i hi
  rw [BitVec.getLsbD_and, BitVec.getLsbD_setWidth, BitVec.getLsbD_append, BitVec.getLsbD_append, dispMask,
    BitVec.getLsbD_extractLsb']
  interval_cases i <;> simp

/-- Two readers in step, the one on the context and the one on the stream, stay in step through what follows them. -/
theorem bind_eq_map_bind {α β γ δ : Type} {bytes : List Byte} {c : Context} {k : α → β} {x : Except Nat (α × Stream)}
    {y : Except Nat (β × Context)} {F : β × Context → Except Nat δ} {G : α × Stream → Except Nat γ} {φ : γ → δ}
    (hxy : (∃ e, x = .error e ∧ y = .error e) ∨
      ∃ a n, x = .ok (a, (c.atCur n).stream bytes) ∧ y = .ok (k a, c.atCur n))
    (hFG : ∀ a n, F (k a, c.atCur n) = (G (a, (c.atCur n).stream bytes)).map φ) : (y >>= F) = (x >>= G).map φ := by
  rcases hxy with ⟨e, rfl, rfl⟩ | ⟨a, n, rfl, rfl⟩
  · rfl
  · exact hFG a n

/-- The two cases of `formatSource_lifts`, as `Lifts.cases` has them. -/
theorem formatSource_cases (bytes : List Byte) (imm : Bool) (c : Context) :
    (∃ e, Stream.source imm c.wflag (c.stream bytes) = .error e ∧ formatSource bytes imm c = .error e) ∨
    ∃ (s : Source) (n : Nat), Stream.source imm c.wflag (c.stream bytes) = .ok (s, (c.atCur n).stream bytes) ∧
      formatSource bytes imm c = .ok ((s.operandOf, s.operandOf.text), c.atCur n) := by
  have h := formatSource_lifts bytes imm c.wflag c rfl
  split at h
  case h_1 e hg => exact .inl ⟨e, hg, h⟩
  case h_2 s t hg =>
    obtain ⟨hf, ht⟩ := h
    exact .inr ⟨s, t.off, hg.trans (by rw [← ht]), hf⟩

theorem formatNone_reads {cfg : Config} {fmt : Format} (h : fmt = .reserved ∨ fmt = .noOperand ∨ fmt = .screen) :
    Reads cfg fmt formatNone := by
  intro a op rest
  rcases h with rfl | rfl | rfl <;> rfl

/-- Every decoder first reads the opcode byte. -/
theorem bind_opcode {α : Type} (a : Word) (op : Byte) (rest : List Byte) (F : Byte × Context → Except Nat α) :
    ((Context.start a).next8 (op :: rest) >>= F) = F (op, (Context.start a).atCur 1) := rfl

theorem formatByteLit_reads (cfg : Config) : Reads cfg (.literal .byte) formatByteLit := fun a op rest =>
  (bind_opcode a op rest _).trans <|
    bind_eq_map_bind ((Context.next8_lifts (op :: rest)).cases ((Context.start a).atCur 1)) fun _ _ => rfl

theorem formatWordLit_reads (cfg : Config) : Reads cfg (.literal .word) formatWordLit := fun a op rest =>
  (bind_opcode a op rest _).trans <|
    bind_eq_map_bind ((Context.next16_lifts (op :: rest)).cases ((Context.start a).atCur 1)) fun _ _ => rfl

/-- The context of a format that writes the width flag, once the opcode byte is read. -/
def flagged (a : Word) (op : Byte) : Context := { (Context.start a).atCur 1 with wflag := wordFlag op }

theorem formatOne_reads (cfg : Config) : Reads cfg .oneOperand formatOne := fun a op rest =>
  (bind_opcode a op rest _).trans <|
    bind_eq_map_bind ((Context.srcDst_lifts (op :: rest)).cases (flagged a op)) fun _ _ => rfl

theorem append_comma (t u : Text) : t ++ ",".toList ++ u = joinComma [t, u] := by simp

theorem append_comma_comma (t u v : Text) : t ++ ",".toList ++ u ++ ",".toList ++ v = joinComma [t, u, v] := by simp

theorem formatTwo_reads (cfg : Config) : Reads cfg .twoOperand formatTwo := by
  intro a op rest
  refine (bind_opcode a op rest _).trans <|
    bind_eq_map_bind ((Context.srcDst_lifts (op :: rest)).cases (flagged a op)) fun dst n =>
    bind_eq_map_bind (formatSource_cases (op :: rest) (immediateFlag op) ((flagged a op).atCur n)) fun src m => ?_
  simp only [append_comma]
  rfl

theorem formatBranch_reads (cfg : Config) : Reads cfg .branch formatBranch := by
  intro a op rest
  refine (bind_opcode a op rest _).trans <|
    bind_eq_map_bind ((Context.next8_lifts (op :: rest)).cases ((Context.start a).atCur 1)) fun low n => ?_
  simp only [id, word_or, displacement_eq]
  rfl

/-- The rendering of slot (c) gives the operand of the record and its text (R206). -/
theorem renderVReg_slotC (cfg : Config) (op : Byte) (c : Slot) :
    renderVReg cfg.vregMask (op.getLsbD cfg.moveMap.vreg) c.operandOf c.operandOf.text =
      (slotCOperand cfg op c, (slotCOperand cfg op c).text) := by
  unfold renderVReg slotCOperand MoveMap.vregOf
  split <;> rfl

theorem formatMove_reads (cfg : Config) : Reads cfg .move (formatMove cfg) := by
  intro a op rest
  refine (bind_opcode a op rest _).trans <|
    bind_eq_map_bind ((formatCount_lifts (op :: rest) _).cases ((Context.start a).atCur 1)) fun slotA _ =>
    bind_eq_map_bind ((Context.gromOperand_lifts (op :: rest) _ _).cases _) fun slotB _ =>
    bind_eq_map_bind ((Context.gromOperand_lifts (op :: rest) _ _).cases _) fun slotC n => ?_
  simp only [renderVReg_slotC, append_comma_comma]
  rfl

/-- Every format decoder, by its format (R228). -/
theorem formatDecoder_reads {cfg : Config} {fmt : Format} {f : List Byte → Context → Except Nat Context}
    (hf : formatDecoder cfg fmt = some f) : Reads cfg fmt f := by
  cases fmt with
  | unknown => cases hf
  | literal lit =>
    cases lit with
    | byte => cases hf; exact formatByteLit_reads cfg
    | word => cases hf; exact formatWordLit_reads cfg
  | reserved => cases hf; exact formatNone_reads (.inl rfl)
  | noOperand => cases hf; exact formatNone_reads (.inr (.inl rfl))
  | screen => cases hf; exact formatNone_reads (.inr (.inr rfl))
  | twoOperand => cases hf; exact formatTwo_reads cfg
  | branch => cases hf; exact formatBranch_reads cfg
  | oneOperand => cases hf; exact formatOne_reads cfg
  | move => cases hf; exact formatMove_reads cfg

/-! ### The length of a transaction -/

/-- What a format reads is within its bounds, the opcode byte counted in, and within the window (R52, R32). -/
theorem readOperands_length {cfg : Config} {page : Word} {op : Byte} {fmt : Format} {t t' : Stream} {ops : List Operand}
    (h : readOperands cfg page op fmt t = .ok (ops, t')) :
    t.off + (lengthRange fmt).1 ≤ t'.off + 1 ∧ t'.off + 1 ≤ t.off + (lengthRange fmt).2 ∧
      t'.off + t'.rest.length = t.off + t.rest.length := by
  cases fmt with
  | unknown | reserved | noOperand | screen =>
    cases h
    exact ⟨le_rfl, le_rfl, rfl⟩
  | literal lit =>
    cases lit with
    | byte =>
      obtain ⟨⟨v, t1⟩, h1, h⟩ := except_bind_ok h
      cases h
      obtain ⟨hrest, hoff⟩ := Stream.next8_ok h1
      simp only [lengthRange, hrest, List.length_cons]
      omega
    | word =>
      obtain ⟨⟨v, t1⟩, h1, h⟩ := except_bind_ok h
      cases h
      obtain ⟨hrest, hoff⟩ := Stream.next16_ok h1
      simp only [lengthRange, hrest, encodeWord, List.length_append, List.length_cons, List.length_nil]
      omega
  | branch =>
    obtain ⟨⟨low, t1⟩, h1, h⟩ := except_bind_ok h
    cases h
    obtain ⟨hrest, hoff⟩ := Stream.next8_ok h1
    simp only [lengthRange, hrest, List.length_cons]
    omega
  | oneOperand =>
    obtain ⟨⟨o, t1⟩, h1, h⟩ := except_bind_ok h
    cases h
    obtain ⟨-, hrest, hoff⟩ := Stream.srcDst_ok h1
    have hsize := o.size_bounds
    simp only [lengthRange, hrest, List.length_append, o.encode_length]
    omega
  | twoOperand =>
    obtain ⟨⟨dst, t1⟩, h1, h⟩ := except_bind_ok h
    obtain ⟨⟨src, t2⟩, h2, h⟩ := except_bind_ok h
    cases h
    obtain ⟨-, hrest1, hoff1⟩ := Stream.srcDst_ok h1
    obtain ⟨-, -, hrest2, hoff2⟩ := Stream.source_ok h2
    have hdst := dst.size_bounds
    have hsrc := src.size_bounds
    simp only [lengthRange, hrest1, hrest2, List.length_append, dst.encode_length, src.encode_length]
    omega
  | move =>
    obtain ⟨⟨a, t1⟩, h1, h⟩ := except_bind_ok h
    obtain ⟨⟨b, t2⟩, h2, h⟩ := except_bind_ok h
    obtain ⟨⟨c, t3⟩, h3, h⟩ := except_bind_ok h
    cases h
    obtain ⟨-, hrest1, hoff1⟩ := Stream.count_ok h1
    obtain ⟨-, hrest2, hoff2⟩ := Stream.slot_ok h2
    obtain ⟨-, hrest3, hoff3⟩ := Stream.slot_ok h3
    have ha := a.size_bounds
    have hb := b.size_bounds
    have hc := c.size_bounds
    simp only [lengthRange, hrest1, hrest2, hrest3, List.length_append, a.encode_length, b.encode_length, c.encode_length]
    omega

/-- All that a transaction that ends with `OK` has done: its entry's format read the operands from the bytes after the opcode
byte, and the record is made of them (R228). -/
theorem transaction_ok_reads {cfg : Config} {rq : Request} {r : Result} (h : transaction cfg rq = .ok r) :
    ∃ op rest i d ops t, rq.bytes = op :: rest ∧ lookup cfg.optable op = some (i, d) ∧
      readOperands cfg (rq.address &&& pageMask) op d.format ⟨rest, 1⟩ = .ok (ops, t) ∧
      r = okResult cfg i d op (Context.start rq.address) (contextAfter rq.address op d.format ops t.off) := by
  obtain ⟨op, rest, i, d, f, c, hbytes, hlookup, hf, hc, rfl⟩ := transaction_ok h
  rw [formatDecoder_reads hf] at hc
  cases hread : readOperands cfg (rq.address &&& pageMask) op d.format ⟨rest, 1⟩ with
  | error k =>
    rw [hread] at hc
    cases hc
  | ok p =>
    rw [hread] at hc
    cases hc
    exact ⟨op, rest, i, d, p.1, p.2, hbytes, hlookup, hread, rfl⟩

/-- Settles O34: the length is where the reading of the operands stopped (`transaction_ok_reads`), which is within the bounds
(`readOperands_length`). -/
theorem lengthWithinFormatBounds : Obligations.LengthWithinFormatBounds := by
  intro cfg rq r h
  obtain ⟨op, rest, i, d, ops, t, hbytes, -, hread, rfl⟩ := transaction_ok_reads h
  have hbounds := readOperands_length hread
  simp only [okResult, contextAfter, Context.start_cur, hbytes, List.length_cons] at hbounds ⊢
  omega

/-! ### What the address reaches -/

/-- Of an outcome without its line, the address reaches only what the entry's format reads. -/
theorem transaction_dropLine_congr {cfg : Config} {a a' : Word} {op : Byte} {rest : List Byte}
    (h : ∀ i d, lookup cfg.optable op = some (i, d) →
      readOperands cfg (a &&& pageMask) op d.format ⟨rest, 1⟩ = readOperands cfg (a' &&& pageMask) op d.format ⟨rest, 1⟩) :
    (transaction cfg ⟨a, op :: rest⟩).dropLine = (transaction cfg ⟨a', op :: rest⟩).dropLine := by
  cases hlookup : lookup cfg.optable op with
  | none => simp [transaction, hlookup]
  | some entry =>
    obtain ⟨i, d⟩ := entry
    cases hf : formatDecoder cfg d.format with
    | none => simp [transaction, hlookup, hf]
    | some f =>
      have hreads := formatDecoder_reads hf
      simp only [transaction, hlookup, hf, hreads a, hreads a', h i d hlookup]
      cases readOperands cfg (a' &&& pageMask) op d.format ⟨rest, 1⟩ with
      | error k => rfl
      | ok p => rfl

/-- Only a branch reads the page (R170). -/
theorem readOperands_page {fmt : Format} (h : fmt ≠ .branch) (cfg : Config) (page page' : Word) (op : Byte) (t : Stream) :
    readOperands cfg page op fmt t = readOperands cfg page' op fmt t := by
  cases fmt with
  | branch => exact absurd rfl h
  | literal lit => cases lit <;> rfl
  | unknown | reserved | noOperand | screen | twoOperand | oneOperand | move => rfl

/-- Settles O36: outside the line the address matters through what the format reads (`transaction_dropLine_congr`), and there
through its page alone. -/
theorem addressReachesOnlyLineAndTarget : Obligations.AddressReachesOnlyLineAndTarget := by
  refine ⟨fun cfg a a' bytes hpage => ?_, fun cfg a a' op rest hbranch => ?_⟩
  · cases bytes with
    | nil => rfl
    | cons op rest =>
      have hpage : a &&& pageMask = a' &&& pageMask := hpage
      exact transaction_dropLine_congr fun i d _ => by rw [hpage]
  · exact transaction_dropLine_congr fun i d hlookup => readOperands_page (hbranch i d hlookup) cfg _ _ op _

end Sys2Proof.Machine
end

section
/-! What a step takes from the state it starts in: the request and nothing else. Then O9 and O49. -/

namespace Sys2Proof.Machine

/-- Settles O9: a transaction is taken up into a state that keeps nothing of the state before (`State.begin_eq`). -/
theorem stepDependsOnRequestAlone : Obligations.StepDependsOnRequestAlone := by
  intro s s' hsame hsome
  obtain ⟨rq, hrq⟩ := Option.ne_none_iff_exists'.1 hsome
  rw [step_of_request hrq, step_of_request (hsame ▸ hrq), State.begin_eq, State.begin_eq]

/-- What the decoder reads from a number is what the window of its bytes decodes to. -/
theorem decode_of_decodeTableWord {nbits w : Nat} {i : Instr} (h : decodeTableWord nbits w = some i) :
    ∃ n, decode (bytesOfWord nbits w) = .instr i n := by
  unfold decodeTableWord at h
  split at h
  case h_1 j n hdecode =>
    cases h
    exact ⟨n, hdecode⟩
  case h_2 | h_3 => cases h

/-- The request that `withFetchWord` hands over. -/
def fetchRequest (s : State) (nbits w : Nat) : Request :=
  ⟨(s.request.map Request.address).getD 0, bytesOfWord nbits w⟩

theorem withFetchWord_request (s : State) (nbits w : Nat) :
    (s.withFetchWord nbits w).request = some (fetchRequest s nbits w) := by
  unfold State.withFetchWord fetchRequest
  cases s.request <;> rfl

/-- Settles O49: the step takes up the request of `withFetchWord` (`withFetchWord_request`), whose window decodes to the
instruction. -/
theorem fetchWordIsRunByNextStep : Obligations.FetchWordIsRunByNextStep := by
  intro s nbits w i h
  obtain ⟨n, hdecode⟩ := decode_of_decodeTableWord h
  have hwindow : decode (fetchRequest s nbits w).bytes = .instr i n := hdecode
  refine ⟨fetchRequest s nbits w, rfl, fun hnone => ?_, fun old hold => ?_, ?_⟩
  · rw [fetchRequest, hnone]; rfl
  · rw [fetchRequest, hold]; rfl
  · rw [step_of_request (withFetchWord_request s nbits w), hwindow]; rfl

end Sys2Proof.Machine
end

section
/-! What a lookup makes of the order of the table; then O51. -/

namespace Sys2Proof

/-- No entry before the one a lookup finds covers the opcode byte (R225). -/
theorem lookup_index_le {op : Byte} {i j : Nat} {table : List Descriptor} {d e : Descriptor}
    (h : lookup table op = some (i, d)) (hj : table[j]? = some e) (he : e.covers op = true) : i ≤ j := by
  have hfind : table.findIdx? (fun d => d.covers op) = some i := by rw [← lookup_index, h]; rfl
  obtain ⟨hjlt, rfl⟩ := List.getElem?_eq_some_iff.1 hj
  obtain ⟨_, _, hbefore⟩ := List.findIdx?_eq_some_iff_getElem.1 hfind
  exact Nat.le_of_not_lt fun hji => hbefore j hji he

/-- Where the table's order is a relation, the entry a lookup finds stands in it to every other entry that covers the byte. -/
theorem lookup_pairwise {R : Descriptor → Descriptor → Prop} {op : Byte} {i j : Nat} {table : List Descriptor}
    {d e : Descriptor} (hR : table.Pairwise R) (h : lookup table op = some (i, d)) (hj : table[j]? = some e)
    (he : e.covers op = true) : (i = j ∧ d = e) ∨ R d e := by
  have hi := lookup_getElem? h
  rcases (lookup_index_le h hj he).eq_or_lt with rfl | hlt
  · exact .inl ⟨rfl, Option.some.inj (hi.symm.trans hj)⟩
  · obtain ⟨hilt, rfl⟩ := List.getElem?_eq_some_iff.1 hi
    obtain ⟨hjlt, rfl⟩ := List.getElem?_eq_some_iff.1 hj
    exact .inr (List.pairwise_iff_getElem.1 hR i j hilt hjlt hlt)

theorem Descriptor.covers_iff (d : Descriptor) (op : Byte) : d.covers op = true ↔ d.lo ≤ op ∧ op ≤ d.hi := by
  simp [Descriptor.covers]

theorem Descriptor.catchAll_iff (d : Descriptor) :
    d.catchAll = true ↔ d.format = .reserved ∨ d.format = .unknown := by
  simp [Descriptor.catchAll]

theorem Descriptor.overlaps_of_covers {d e : Descriptor} {op : Byte} (hd : d.covers op = true) (he : e.covers op = true) :
    d.overlaps e = true := by
  obtain ⟨hdlo, hdhi⟩ := (d.covers_iff op).1 hd
  obtain ⟨helo, hehi⟩ := (e.covers_iff op).1 he
  simp [Descriptor.overlaps, BitVec.le_trans hdlo hehi, BitVec.le_trans helo hdhi]

/-- Settles O51: the names are a rule of the ROM (`romValid_order`); an entry behind a reserved one that shares a byte with it
overlaps it, so by the order R56 asks for it is a catch-all too. -/
theorem reservedEntryHidesNoSpecificEntry : Obligations.ReservedEntryHidesNoSpecificEntry := by
  intro cfg op i d hvalid hlookup
  obtain ⟨horder, hnames⟩ := Machine.romValid_order hvalid
  refine ⟨hnames d (List.mem_of_getElem? (lookup_getElem? hlookup)), fun hreserved e he hlo hhi => ?_⟩
  obtain ⟨j, hj⟩ := List.mem_iff_getElem?.1 he
  have hcovers : e.covers op = true := (e.covers_iff op).2 ⟨hlo, hhi⟩
  rcases lookup_pairwise ((Machine.specificFirst_iff cfg).1 horder) hlookup hj hcovers with ⟨-, rfl⟩ | hcatch
  · exact .inl hreserved
  · exact e.catchAll_iff.1 (hcatch (d.catchAll_iff.2 (.inl hreserved))
      (Descriptor.overlaps_of_covers (lookup_covers hlookup) hcovers))

end Sys2Proof
end

section
/-! When a transaction ends in `UNKNOWN`; then O19. -/

namespace Sys2Proof.Machine

/-- Format -1 alone has no decoder (R228). -/
theorem formatDecoder_eq_none {cfg : Config} {fmt : Format} (h : formatDecoder cfg fmt = none) : fmt = .unknown := by
  cases fmt with
  | unknown => rfl
  | literal lit => cases lit <;> cases h
  | reserved | twoOperand | noOperand | branch | oneOperand | move | screen => cases h

/-- All that a transaction that ends with `UNKNOWN` has met: no entry, or one with no routine (R226). -/
theorem transaction_unknown {cfg : Config} {rq : Request} {r : Result} (h : transaction cfg rq = .unknown r) :
    ∃ op rest, rq.bytes = op :: rest ∧
      (lookup cfg.optable op = none ∨ ∃ i d, lookup cfg.optable op = some (i, d) ∧ d.format = .unknown) := by
  rcases rq with ⟨a, _ | ⟨op, rest⟩⟩
  · cases h
  refine ⟨op, rest, rfl, ?_⟩
  simp only [transaction] at h
  split at h
  case h_1 hlookup => exact .inl hlookup
  case h_2 i d hlookup =>
    split at h
    case h_1 hnone => exact .inr ⟨i, d, hlookup, formatDecoder_eq_none hnone⟩
    case h_2 f hf => split at h <;> cases h

/-- Settles O19: in a total table every opcode byte resolves to an entry with a routine (`lookup_of_tableTotal`), and `UNKNOWN`
needs a byte that does not (`transaction_unknown`). -/
theorem totalTableNeverReportsUnknown : Obligations.TotalTableNeverReportsUnknown := by
  intro cfg rq r htotal hunknown
  obtain ⟨op, rest, -, hcause⟩ := transaction_unknown hunknown
  obtain ⟨i, d, hlookup, hformat⟩ := lookup_of_tableTotal htotal op
  rcases hcause with hnone | ⟨i', d', hlookup', hformat'⟩
  · cases hlookup.symm.trans hnone
  · cases hlookup.symm.trans hlookup'
    exact hformat hformat'

end Sys2Proof.Machine
end

section
/-! The encoding of a well-formed instruction is read back by the routine of its entry of the default ROM; then O10 and O13. -/

namespace Sys2Proof

/-! ### The fields of an opcode byte -/

/-- Bit 1 of a format-1 opcode byte is `I` (R53). -/
theorem defaultTable_immediateFlag_twoOpcode : ∀ d ∈ defaultTable, d.format = .twoOperand → ∀ imm w : Bool,
    immediateFlag (twoOpcode d.lo imm w) = imm := by decide +kernel

/-- The low five bits of a format-4 opcode byte are displacement bits 12 to 8 (R53). -/
theorem defaultTable_field_branch : ∀ d ∈ defaultTable, d.format = .branch → ∀ high : BitVec 5,
    (d.lo ||| (0#3 ++ high)).extractLsb' 0 5 = high := by decide +kernel

theorem displacement_of_fields (disp : BitVec 13) : disp.extractLsb' 8 5 ++ disp.extractLsb' 0 8 = disp := by
  apply BitVec.eq_of_toNat_eq
  rw [append_toNat, field_toNat, field_toNat]
  omega

theorem moveOpcode_mode : ∀ mode : BitVec 5, (moveOpcode mode).extractLsb' 0 5 = mode := by decide

/-! ### The routines -/

/-- The bytes of `i` are the opcode byte `op` of entry `k` and `body`, and the routine of that entry reads `i` back from them,
whatever follows. -/
structure ReadsBack (k : Nat) (r : Routine) (op : Byte) (body : List Byte) (i : Instr) : Prop where
  routine : routines[k]? = some r
  covers : (romEntry k).covers op = true
  bytes : encode i = op :: body
  reads : ∀ rest, r op ⟨body ++ rest, 1⟩ = .ok (i, ⟨rest, 1 + body.length⟩)

theorem lt_of_routine {k : Nat} {r : Routine} (h : routines[k]? = some r) : k < 61 :=
  (List.getElem?_eq_some_iff.1 h).1

theorem ReadsBack.none {k : Nat} {mk : Byte → Instr} {op : Byte} {i : Instr} (hr : routines[k]? = some (readNone mk))
    (hcovers : (romEntry k).covers op = true) (hmk : mk op = i) (hencode : encode i = [op]) :
    ReadsBack k (readNone mk) op [] i where
  routine := hr
  covers := hcovers
  bytes := hencode
  reads rest := by rw [readNone, hmk]; rfl

theorem ReadsBack.byteLit {k : Nat} {mk : Byte → Instr} {v : Byte} (hr : routines[k]? = some (readByteLit mk))
    (hencode : encode (mk v) = [(romEntry k).lo, v]) : ReadsBack k (readByteLit mk) (romEntry k).lo [v] (mk v) where
  routine := hr
  covers := defaultTable_covers_lo _ (romEntry_mem (lt_of_routine hr))
  bytes := hencode
  reads _ := rfl

theorem ReadsBack.wordLit {k : Nat} {mk : Word → Instr} {v : Word} (hr : routines[k]? = some (readWordLit mk))
    (hencode : encode (mk v) = (romEntry k).lo :: encodeWord v) :
    ReadsBack k (readWordLit mk) (romEntry k).lo (encodeWord v) (mk v) where
  routine := hr
  covers := defaultTable_covers_lo _ (romEntry_mem (lt_of_routine hr))
  bytes := hencode
  reads rest := by
    simp only [readWordLit, Stream.next16_encode]
    rfl

theorem ReadsBack.branch {k : Nat} {mk : BitVec 13 → Instr} {disp : BitVec 13}
    (hr : routines[k]? = some (readBranch mk)) (hformat : (romEntry k).format = .branch)
    (hencode : encode (mk disp) = encodeBranch (romEntry k).lo disp) :
    ReadsBack k (readBranch mk) (branchOpcode (romEntry k).lo disp) [disp.extractLsb' 0 8] (mk disp) where
  routine := hr
  covers := defaultTable_covers_branchField _ (romEntry_mem (lt_of_routine hr)) hformat _
  bytes := hencode
  reads rest := by
    have hhigh : (branchOpcode (romEntry k).lo disp).extractLsb' 0 5 = disp.extractLsb' 8 5 :=
      defaultTable_field_branch _ (romEntry_mem (lt_of_routine hr)) hformat _
    simp only [readBranch, List.cons_append, List.nil_append, Stream.next8_cons, hhigh, bind, Except.bind,
      displacement_of_fields]
    rfl

theorem ReadsBack.one {k : Nat} {mk : Bool → SrcDst → Instr} {w : Bool} {o : SrcDst}
    (hr : routines[k]? = some (readOne mk)) (hformat : (romEntry k).format = .oneOperand) (ho : o.wf = true)
    (hencode : encode (mk w o) = encodeOne (romEntry k).lo w o) :
    ReadsBack k (readOne mk) (oneOpcode (romEntry k).lo w) o.encode (mk w o) := by
  obtain ⟨hcovers, hw⟩ := defaultTable_covers_oneOpcode _ (romEntry_mem (lt_of_routine hr)) hformat w
  have hw : wordFlag (oneOpcode (romEntry k).lo w) = w := hw
  refine ⟨hr, hcovers, hencode, fun rest => ?_⟩
  simp only [readOne, Stream.srcDst_encode ho, hw, o.encode_length]
  rfl

theorem ReadsBack.two {k : Nat} {mk : Bool → SrcDst → Source → Instr} {w : Bool} {dst : SrcDst} {src : Source}
    (hr : routines[k]? = some (readTwo mk)) (hformat : (romEntry k).format = .twoOperand)
    (hwf : (dst.wf && src.wf w) = true) (hencode : encode (mk w dst src) = encodeTwo (romEntry k).lo w dst src) :
    ReadsBack k (readTwo mk) (twoOpcode (romEntry k).lo src.isLit w) (dst.encode ++ src.encode) (mk w dst src) := by
  obtain ⟨hdst, hsrc⟩ := Bool.and_eq_true_iff.1 hwf
  have hmem := romEntry_mem (lt_of_routine hr)
  obtain ⟨hcovers, hw⟩ := defaultTable_covers_twoOpcode _ hmem hformat src.isLit w
  have hw : wordFlag (twoOpcode (romEntry k).lo src.isLit w) = w := hw
  have himm := defaultTable_immediateFlag_twoOpcode _ hmem hformat src.isLit w
  refine ⟨hr, hcovers, hencode, fun rest => ?_⟩
  simp only [readTwo, List.append_assoc, Stream.srcDst_encode hdst, hw, himm, bind, Except.bind,
    Stream.source_encode hsrc, List.length_append, dst.encode_length, src.encode_length, Nat.add_assoc]
  rfl

theorem ReadsBack.move {mode : BitVec 5} {a : Count} {b c : Slot} (hwf : moveWf mode a b c = true) :
    ReadsBack 21 readMove (moveOpcode mode) (a.encode ++ b.encode ++ c.encode) (.move mode a b c) := by
  simp only [moveWf, Bool.and_eq_true] at hwf
  obtain ⟨⟨ha, hb⟩, hc⟩ := hwf
  refine ⟨rfl, romEntry_covers_moveOpcode mode, rfl, fun rest => ?_⟩
  simp only [readMove, List.append_assoc, Stream.count_encode ha, bind, Except.bind, Stream.slot_encode hb,
    Stream.slot_encode hc, moveOpcode_mode, List.length_append, a.encode_length, b.encode_length, c.encode_length,
    Nat.add_assoc]
  rfl

/-- The readers of the five rows of `XGPL` find the opcode bits their range leaves free, and tell the two rows of descriptor
20 apart (R101 to R104). -/
theorem xgpl_fields :
    (∀ x : BitVec 2, (if (0b000101#6 ++ x : Byte) < 0x18 then Instr.xgpl14 ((0b000101#6 ++ x : Byte).extractLsb' 0 2)
      else .xgpl18 ((0b000101#6 ++ x : Byte).extractLsb' 0 3)) = .xgpl14 x) ∧
    (∀ x : BitVec 3, (if (0b00011#5 ++ x : Byte) < 0x18 then Instr.xgpl14 ((0b00011#5 ++ x : Byte).extractLsb' 0 2)
      else .xgpl18 ((0b00011#5 ++ x : Byte).extractLsb' 0 3)) = .xgpl18 x) ∧
    (∀ x : BitVec 3, Instr.xgpl98 ((0b10011#5 ++ x : Byte).extractLsb' 0 3) = .xgpl98 x) ∧
    (∀ x : BitVec 2, Instr.xgplF0 ((0b111100#6 ++ x : Byte).extractLsb' 0 2) = .xgplF0 x) ∧
    ∀ x : BitVec 2, Instr.xgplFC ((0b111111#6 ++ x : Byte).extractLsb' 0 2) = .xgplFC x := by decide

/-- Every well-formed instruction, by its row of the opcode table: the number of its entry and its format's reader. -/
theorem exists_readsBack (i : Instr) (hwf : i.wf = true) : ∃ k r op body, ReadsBack k r op body i := by
  obtain ⟨hcovers14, hcovers18, hcovers98, hcoversF0, hcoversFC⟩ := romEntry_covers_reserved
  obtain ⟨hread14, hread18, hread98, hreadF0, hreadFC⟩ := xgpl_fields
  exact match i, hwf with
    | .rtn, _ => ⟨0, _, _, _, .none rfl rfl rfl rfl⟩
    | .rtnc, _ => ⟨1, _, _, _, .none rfl rfl rfl rfl⟩
    | .rand _, _ => ⟨2, _, _, _, .byteLit rfl rfl⟩
    | .scan, _ => ⟨3, _, _, _, .none rfl rfl rfl rfl⟩
    | .back _, _ => ⟨4, _, _, _, .byteLit rfl rfl⟩
    | .b _, _ => ⟨5, _, _, _, .wordLit rfl rfl⟩
    | .call _, _ => ⟨6, _, _, _, .wordLit rfl rfl⟩
    | .all _, _ => ⟨7, _, _, _, .byteLit rfl rfl⟩
    | .fmt, _ => ⟨8, _, _, _, .none rfl rfl rfl rfl⟩
    | .h, _ => ⟨9, _, _, _, .none rfl rfl rfl rfl⟩
    | .gt, _ => ⟨10, _, _, _, .none rfl rfl rfl rfl⟩
    | .exit, _ => ⟨11, _, _, _, .none rfl rfl rfl rfl⟩
    | .carry, _ => ⟨12, _, _, _, .none rfl rfl rfl rfl⟩
    | .ovf, _ => ⟨13, _, _, _, .none rfl rfl rfl rfl⟩
    | .parse _, _ => ⟨14, _, _, _, .byteLit rfl rfl⟩
    | .xml _, _ => ⟨15, _, _, _, .byteLit rfl rfl⟩
    | .cont, _ => ⟨16, _, _, _, .none rfl rfl rfl rfl⟩
    | .exec, _ => ⟨17, _, _, _, .none rfl rfl rfl rfl⟩
    | .rtnb, _ => ⟨18, _, _, _, .none rfl rfl rfl rfl⟩
    | .rtgr, _ => ⟨19, _, _, _, .none rfl rfl rfl rfl⟩
    | .xgpl14 x, _ => ⟨20, _, _, _, .none rfl (hcovers14 x) (hread14 x) rfl⟩
    | .xgpl18 x, _ => ⟨20, _, _, _, .none rfl (hcovers18 x) (hread18 x) rfl⟩
    | .move _ _ _ _, hwf => ⟨21, _, _, _, .move hwf⟩
    | .br _, _ => ⟨22, _, _, _, .branch rfl rfl rfl⟩
    | .bs _, _ => ⟨23, _, _, _, .branch rfl rfl rfl⟩
    | .abs _ _, hwf => ⟨24, _, _, _, .one rfl rfl hwf rfl⟩
    | .neg _ _, hwf => ⟨25, _, _, _, .one rfl rfl hwf rfl⟩
    | .inv _ _, hwf => ⟨26, _, _, _, .one rfl rfl hwf rfl⟩
    | .clr _ _, hwf => ⟨27, _, _, _, .one rfl rfl hwf rfl⟩
    | .fetch _ _, hwf => ⟨28, _, _, _, .one rfl rfl hwf rfl⟩
    | .case _ _, hwf => ⟨29, _, _, _, .one rfl rfl hwf rfl⟩
    | .push _ _, hwf => ⟨30, _, _, _, .one rfl rfl hwf rfl⟩
    | .cz _ _, hwf => ⟨31, _, _, _, .one rfl rfl hwf rfl⟩
    | .inc _ _, hwf => ⟨32, _, _, _, .one rfl rfl hwf rfl⟩
    | .dec _ _, hwf => ⟨33, _, _, _, .one rfl rfl hwf rfl⟩
    | .inct _ _, hwf => ⟨34, _, _, _, .one rfl rfl hwf rfl⟩
    | .dect _ _, hwf => ⟨35, _, _, _, .one rfl rfl hwf rfl⟩
    | .xgpl98 x, _ => ⟨36, _, _, _, .none rfl (hcovers98 x) (hread98 x) rfl⟩
    | .add _ _ _, hwf => ⟨37, _, _, _, .two rfl rfl hwf rfl⟩
    | .sub _ _ _, hwf => ⟨38, _, _, _, .two rfl rfl hwf rfl⟩
    | .mul _ _ _, hwf => ⟨39, _, _, _, .two rfl rfl hwf rfl⟩
    | .div _ _ _, hwf => ⟨40, _, _, _, .two rfl rfl hwf rfl⟩
    | .and _ _ _, hwf => ⟨41, _, _, _, .two rfl rfl hwf rfl⟩
    | .or _ _ _, hwf => ⟨42, _, _, _, .two rfl rfl hwf rfl⟩
    | .xor _ _ _, hwf => ⟨43, _, _, _, .two rfl rfl hwf rfl⟩
    | .st _ _ _, hwf => ⟨44, _, _, _, .two rfl rfl hwf rfl⟩
    | .ex _ _ _, hwf => ⟨45, _, _, _, .two rfl rfl hwf rfl⟩
    | .ch _ _ _, hwf => ⟨46, _, _, _, .two rfl rfl hwf rfl⟩
    | .che _ _ _, hwf => ⟨47, _, _, _, .two rfl rfl hwf rfl⟩
    | .cgt _ _ _, hwf => ⟨48, _, _, _, .two rfl rfl hwf rfl⟩
    | .cge _ _ _, hwf => ⟨49, _, _, _, .two rfl rfl hwf rfl⟩
    | .ceq _ _ _, hwf => ⟨50, _, _, _, .two rfl rfl hwf rfl⟩
    | .clog _ _ _, hwf => ⟨51, _, _, _, .two rfl rfl hwf rfl⟩
    | .sra _ _ _, hwf => ⟨52, _, _, _, .two rfl rfl hwf rfl⟩
    | .sll _ _ _, hwf => ⟨53, _, _, _, .two rfl rfl hwf rfl⟩
    | .srl _ _ _, hwf => ⟨54, _, _, _, .two rfl rfl hwf rfl⟩
    | .src _ _ _, hwf => ⟨55, _, _, _, .two rfl rfl hwf rfl⟩
    | .coinc _ _ _, hwf => ⟨56, _, _, _, .two rfl rfl hwf rfl⟩
    | .xgplF0 x, _ => ⟨57, _, _, _, .none rfl (hcoversF0 x) (hreadF0 x) rfl⟩
    | .io _ _ _, hwf => ⟨58, _, _, _, .two rfl rfl hwf rfl⟩
    | .swgr _ _ _, hwf => ⟨59, _, _, _, .two rfl rfl hwf rfl⟩
    | .xgplFC x, _ => ⟨60, _, _, _, .none rfl (hcoversFC x) (hreadFC x) rfl⟩

/-! ### The lookup -/

/-- The ranges of the default ROM are disjoint, so a byte resolves to the one entry that covers it. -/
theorem lookup_defaultTable {k : Nat} (hk : k < 61) {op : Byte} (hcovers : (romEntry k).covers op = true) :
    lookup defaultTable op = some (k, romEntry k) := by
  obtain ⟨i, d, hlookup, -⟩ := lookup_of_tableTotal default_tableTotal op
  have hlookup : lookup defaultTable op = some (i, d) := hlookup
  rcases lookup_pairwise defaultTable_disjoint hlookup (defaultTable_getElem? hk) hcovers with ⟨rfl, rfl⟩ | hdisjoint
  · exact hlookup
  · cases hdisjoint.symm.trans (Descriptor.overlaps_of_covers (lookup_covers hlookup) hcovers)

/-- A byte that an entry of the default ROM covers is decoded by that entry's routine. -/
theorem decode_of_covers {k : Nat} (hk : k < 61) {op : Byte} (hcovers : (romEntry k).covers op = true) (rest : List Byte) :
    decode (op :: rest) = runRoutine k op rest := by
  simp [decode, lookup_defaultTable hk hcovers, defaultTable_format _ (romEntry_mem hk)]

/-! ### The statements -/

/-- Settles O10: the opcode byte of the encoding resolves to the instruction's own entry (`decode_of_covers`), whose routine
reads the instruction back (`exists_readsBack`). -/
theorem decodeOfEncodeIsIdentity : Obligations.DecodeOfEncodeIsIdentity := by
  intro i rest hwf
  obtain ⟨k, r, op, body, hroutine, hcovers, hbytes, hreads⟩ := exists_readsBack i hwf
  rw [hbytes, List.cons_append, decode_of_covers (lt_of_routine hroutine) hcovers, List.length_cons]
  simp [runRoutine, hroutine, hreads rest, Nat.add_comm]

/-- Settles O13: each of the words is the encoding of its instruction (O10). -/
theorem sampleWordsDecode : Obligations.SampleWordsDecode :=
  ⟨decodeOfEncodeIsIdentity .rtn [] rfl, decodeOfEncodeIsIdentity (.back 0x2A) [] rfl,
    decodeOfEncodeIsIdentity (.b 0x1234) [] rfl, decodeOfEncodeIsIdentity (.xgpl14 0) [] rfl,
    decodeOfEncodeIsIdentity (.br 0x034) [] rfl, decodeOfEncodeIsIdentity .fmt [] rfl,
    decodeOfEncodeIsIdentity (.clr false (.far true true 0xFFFF (some 0xFF))) [] rfl,
    decodeOfEncodeIsIdentity (.add false (.near false false 0x010 none) (.lit8 0x05)) [] rfl,
    decodeOfEncodeIsIdentity
      (.move 0b10001 (.lit 0x0020) (.operand (.near true false 0x100 none)) (.grom ⟨0x1234, none⟩)) [] rfl⟩

end Sys2Proof
end

section
/-! The operand extractors on the bytes they read and on a window that ends inside them, and the sums their addresses are; then
O20 to O24. -/

namespace Sys2Proof

theorem Honest.error_eq {α : Type} {g : Stream → Except Nat (α × Stream)} (hg : Honest g) {t : Stream} {k : Nat}
    (h : g t = .error k) : k = t.off + t.rest.length := by
  have ht := hg t
  rwa [h] at ht

end Sys2Proof

namespace Sys2Proof.Machine

/-! ### A reader on a context, from the reader of the stream it follows -/

theorem stream_append {c : Context} {before : List Byte} (hcur : c.cur = before.length) (rest : List Byte) :
    c.stream (before ++ rest) = ⟨rest, c.cur⟩ := by
  simp [Context.stream, hcur]

theorem Lifts.ok {α β : Type} {bytes : List Byte} {f : Context → Except Nat (β × Context)}
    {g : Stream → Except Nat (α × Stream)} {k : α → β} (h : Lifts bytes f g k) {c : Context} {a : α} {t : Stream}
    (hg : g (c.stream bytes) = .ok (a, t)) : f c = .ok (k a, c.atCur t.off) := by
  have hc := h c
  rw [hg] at hc
  exact hc.1

theorem Lifts.error_iff {α β : Type} {bytes : List Byte} {f : Context → Except Nat (β × Context)}
    {g : Stream → Except Nat (α × Stream)} {k : α → β} (h : Lifts bytes f g k) {c : Context} {e : Nat} :
    f c = .error e ↔ g (c.stream bytes) = .error e := by
  rcases h.cases c with ⟨e', hg, hf⟩ | ⟨a, n, hg, hf⟩ <;> simp [hf, hg]

/-! ### The extractors -/

/-- Settles O20: the decoder's reader reads every well-formed operand back from its bytes (`Stream.srcDst_encode`), and `SrcDst`
follows that reader. -/
theorem srcDstReadsEveryForm : Obligations.SrcDstReadsEveryForm := by
  intro o before rest c hwf hcur
  apply (Context.srcDst_lifts _).ok (t := ⟨rest, c.cur + o.size⟩)
  rw [List.append_assoc, stream_append hcur, Stream.srcDst_encode hwf]

/-- Settles O21: the reader that `SrcDst` follows fails only at the end of the window (`Honest.srcDst`) and at one of the next
four bytes (`ReadsAtMost.srcDst`). -/
theorem srcDstTruncatesAtWindowEnd : Obligations.SrcDstTruncatesAtWindowEnd := by
  intro bytes c k hcur herror
  have hread : (c.stream bytes).srcDst = .error k := (Context.srcDst_lifts bytes).error_iff.1 herror
  have hend : k = c.cur + (bytes.drop c.cur).length := Honest.srcDst.error_eq hread
  have hlt : k < c.cur + 4 := ReadsAtMost.srcDst.error_lt hread
  rw [List.length_drop] at hend
  omega

/-- A GROM form is a well-formed slot when it is indexed as the slot's index bit says (R88). -/
theorem grom_slot_wf (g : GromRef) : (Slot.grom g).wf false g.index.isSome = true := by
  simp [Slot.wf]

theorem gromOperand_encode (g : GromRef) {before : List Byte} (rest : List Byte) {c : Context}
    (hcur : c.cur = before.length) : c.gromOperand (before ++ g.encode ++ rest) false g.index.isSome =
      .ok ((g.operand, g.operand.text), c.atCur (c.cur + g.size)) := by
  apply (Context.gromOperand_lifts _ _ _).ok (a := .grom g) (t := ⟨rest, c.cur + g.size⟩)
  rw [List.append_assoc, stream_append hcur]
  exact Stream.slot_encode (grom_slot_wf g) rest c.cur

/-- A window that ends inside a GROM form is truncated at its end (R88, R91). -/
theorem gromOperand_take (g : GromRef) {before : List Byte} {c : Context} (hcur : c.cur = before.length) {m : Nat}
    (hm : m < g.size) :
    c.gromOperand (before ++ g.encode.take m) false g.index.isSome = .error (before.length + m) := by
  have hwhole := Stream.slot_encode (grom_slot_wf g) [] c.cur
  rw [List.append_nil] at hwhole
  apply (Context.gromOperand_lifts _ _ _).error_iff.2
  rw [stream_append hcur, ← hcur]
  exact (Honest.slot _ _).take hwhole (by rwa [Slot.encode, g.encode_length])

/-! ### The addressing modes -/

theorem indexCell_eq : indexCell = fun x => x.setWidth 16 + 0x8300#16 := by
  funext x
  exact BitVec.add_comm _ _

/-- Settles O22: the GROM form is the slot that `GromOperand` reads with `sel` clear (`gromOperand_encode`, `gromOperand_take`),
its bytes the address's two and the index byte. -/
theorem gromOperandReadsEveryForm : Obligations.GromOperandReadsEveryForm := by
  refine ⟨fun _ _ _ => rfl, fun hi lo index before rest c hcur => ?_⟩
  have hbytes : (GromRef.mk (hi ++ lo) index).encode = [hi, lo] ++ index.toList := by
    rw [GromRef.encode, encodeWord_append]
  have hwhole := gromOperand_encode ⟨hi ++ lo, index⟩ rest hcur
  have hpart := fun m => gromOperand_take ⟨hi ++ lo, index⟩ hcur (m := m)
  rw [hbytes, ← List.append_assoc before, GromRef.operand, indexCell_eq] at hwhole
  simp only [hbytes] at hpart
  refine ⟨hwhole.trans ?_, hpart⟩
  cases index <;> rfl

/-- The text of a `Mem` operand, by space and mark (R84, R85). -/
theorem mem_text (a : Word) (e : Bool) (ix : Option Word) :
    (Operand.mem .cpu false a e ix).text = "@>".toList ++ hex4 a ++ indexText ix ∧
    (Operand.mem .cpu true a e ix).text = "*>".toList ++ hex4 a ++ indexText ix ∧
    (Operand.mem .vdp false a e ix).text = "V@>".toList ++ hex4 a ++ indexText ix ∧
    (Operand.mem .vdp true a e ix).text = "V*>".toList ++ hex4 a ++ indexText ix := by
  simp [Operand.text, spaceText, indirectText]

theorem short_operand (a : BitVec 7) :
    (SrcDst.short a).operand = .mem .cpu false (a.setWidth 16 + 0x8300) false none := by
  rw [SrcDst.operand, BitVec.add_comm, scratchBase]

/-- Settles O23: row by row, the operand of each form (R81, R87), its text (`mem_text`) and its size. -/
theorem addressingModeTable : Obligations.AddressingModeTable := by
  refine ⟨fun a => ⟨short_operand a, ?_, rfl⟩, fun off ix => ?_, fun a ix => ?_, fun a e ix => ?_,
    fun v i off a x => ⟨rfl, rfl, rfl, rfl⟩⟩
  · rw [short_operand, (mem_text _ _ _).1, indexText, List.append_nil]
  · rw [← indexCell_eq]
    exact ⟨rfl, rfl, rfl, rfl⟩
  · rw [← indexCell_eq]
    exact ⟨rfl, rfl, rfl, rfl⟩
  · cases ix with
    | none => exact mem_text a e none
    | some x => exact mem_text a e (some x)

/-! ### The sums -/

/-- VDP direct is the mode that adds no base (R84). -/
theorem effectiveAddr_vdpDirect (r : Word) : effectiveAddr true false r = r := rfl

theorem effectiveAddr_of_ne_vdpDirect {v i : Bool} (h : ¬ (v = true ∧ i = false)) (r : Word) :
    effectiveAddr v i r = r + 0x8300 := by
  rw [effectiveAddr, if_neg (by simpa using h), scratchBase]

/-- The base wraps the offsets from 0x7D00 on, and no others (R90). -/
theorem add_base_toNat (r : Word) :
    (r.toNat < 0x7D00 → (r + 0x8300).toNat = r.toNat + 0x8300) ∧
    (0x7D00 ≤ r.toNat → (r + 0x8300).toNat = r.toNat - 0x7D00) := by
  have hbase : (0x8300 : Word).toNat = 0x8300 := rfl
  rw [BitVec.toNat_add, hbase]
  omega

/-- A field of fewer than 16 bits that is below 0x7D00 does not wrap with the base. -/
theorem base_add_setWidth_toNat {n : Nat} (hn : n ≤ 16) (r : BitVec n) (hr : r.toNat < 0x7D00) :
    (scratchBase + r.setWidth 16).toNat = 0x8300 + r.toNat := by
  have hwide : (r.setWidth 16).toNat = r.toNat := BitVec.toNat_setWidth_of_le hn
  rw [BitVec.add_comm, Nat.add_comm, ← hwide]
  exact (add_base_toNat _).1 (by rwa [hwide])

/-- The offset of a well-formed two-byte form is below the escape (R54). -/
theorem near_offset_lt {v i : Bool} {off : BitVec 12} {ix : Option Byte} (h : (SrcDst.near v i off ix).wf = true) :
    off.toNat < 0x0F00 := by
  have hlt : off.setWidth 16 < extThreshold := by simpa [SrcDst.wf] using h
  have hwide : (off.setWidth 16).toNat = off.toNat := BitVec.toNat_setWidth_of_le (by decide)
  rwa [BitVec.lt_def, hwide] at hlt

/-- The address of a well-formed two-byte form: no sum wraps, and the highest is 0x8300 + 0x0EFF (R90). -/
theorem near_address_toNat (v i : Bool) {off : BitVec 12} (hoff : off.toNat < 0x0F00) :
    (effectiveAddr v i (off.setWidth 16)).toNat = (if v = true ∧ i = false then 0 else 0x8300) + off.toNat ∧
    (effectiveAddr v i (off.setWidth 16)).toNat ≤ 0x91FF := by
  have hwide : (off.setWidth 16).toNat = off.toNat := BitVec.toNat_setWidth_of_le (by decide)
  by_cases hmode : v = true ∧ i = false
  · obtain ⟨rfl, rfl⟩ := hmode
    rw [effectiveAddr_vdpDirect, hwide, if_pos ⟨rfl, rfl⟩]
    omega
  · rw [effectiveAddr_of_ne_vdpDirect hmode, if_neg hmode, (add_base_toNat _).1 (by omega), hwide]
    omega

/-- Settles O24: the fields of the short form, the two-byte form and the index byte are below 0x7D00, where adding the base
begins to wrap (`add_base_toNat`). -/
theorem onlyExtendedSumsWrap : Obligations.OnlyExtendedSumsWrap := by
  refine ⟨fun a => base_add_setWidth_toNat (by decide) a (by omega), fun x => base_add_setWidth_toNat (by decide) x (by omega),
    fun v i off hwf => near_address_toNat v i (near_offset_lt hwf), fun v i a hmode => ?_, effectiveAddr_vdpDirect⟩
  rw [effectiveAddr_of_ne_vdpDirect hmode]
  exact add_base_toNat a

end Sys2Proof.Machine
end

section
/-! The record of an instruction that does not write the width flag, and the opcode bytes of format 0; then O39. -/

namespace Sys2Proof.Machine

/-- The line of the pseudocode is the line written out (R232). -/
theorem compose_eq_lineOf (cfg : Config) (a : Word) (w : Bool) (mnemonic optext : Text) :
    compose cfg a w mnemonic optext = lineOf cfg a w mnemonic optext := by
  simp [compose, lineOf, widthMarker]

/-- Outside formats 1 and 5 a completion reports the flag of the context it ran in (R17). -/
theorem complete_keepsFlag {s : State} {c : Context} (h : s.ctx = some c) (index : Nat) (op : Byte) (n : Nat)
    (ops : Context → List Operand) :
    complete index op n none ops s = .next (s.finish (keepsFlag c index (romEntry index).mnemonic (romEntry index).format op
      (ops c) (joinComma ((ops c).map Operand.text)) n)) := by
  rw [complete_of_ctx h, okResult_decoded, compose_eq_lineOf]
  rfl

/-- The format-0 decoder in a context (R100). -/
theorem reservedOp_of_ctx {s : State} {c : Context} (h : s.ctx = some c) (index : Nat) (op : Byte) :
    reservedOp index op s =
      .next (s.finish (plainOutcome c index (romEntry index).mnemonic (romEntry index).format op)) :=
  complete_keepsFlag h index op 1 _

/-- A row of `XGPL` counts its opcode bytes on from the first of its range: the fixed bits over the free ones are a sum
(R101 to R104). -/
theorem xgpl_opcode_sums :
    (∀ x : BitVec 2, (0b000101#6 ++ x : Byte) = 0x14 + x.setWidth 8) ∧
    (∀ y : BitVec 3, (0b00011#5 ++ y : Byte) = 0x18 + y.setWidth 8) ∧
    (∀ y : BitVec 3, (0b10011#5 ++ y : Byte) = 0x98 + y.setWidth 8) ∧
    (∀ x : BitVec 2, (0b111100#6 ++ x : Byte) = 0xF0 + x.setWidth 8) ∧
    ∀ x : BitVec 2, (0b111111#6 ++ x : Byte) = 0xFC + x.setWidth 8 := by decide

/-- Settles O39: each of the five meanings is the format-0 decoder on its entry (`reservedOp_of_ctx`), at the opcode byte
that `xgpl_opcode_sums` gives. -/
theorem reservedOpcodesComplete : Obligations.ReservedOpcodesComplete := by
  intro s c x y hctx
  obtain ⟨hop14, hop18, hop98, hopF0, hopFC⟩ := xgpl_opcode_sums
  rw [← hop14, ← hop18, ← hop98, ← hopF0, ← hopFC]
  exact ⟨reservedOp_of_ctx hctx 20 _, reservedOp_of_ctx hctx 20 _, reservedOp_of_ctx hctx 36 _,
    reservedOp_of_ctx hctx 57 _, reservedOp_of_ctx hctx 60 _⟩

end Sys2Proof.Machine
end

section
/-! A transaction from what its format reads, whole windows and windows that end early; then O30 and O44. -/

namespace Sys2Proof.Machine

/-! ### A transaction, from what its format reads -/

/-- A format with a routine ends the transaction as the reading of its operands ends (R228): the converse of
`transaction_ok_reads`, and the truncated end with it. -/
theorem transaction_of_lookup {cfg : Config} {op : Byte} {i : Nat} {d : Descriptor}
    (hlookup : lookup cfg.optable op = some (i, d)) (hformat : d.format ≠ .unknown) (a : Word) (rest : List Byte) :
    transaction cfg ⟨a, op :: rest⟩ =
      match readOperands cfg (a &&& pageMask) op d.format ⟨rest, 1⟩ with
      | .error k => .truncated k
      | .ok (ops, t) => .ok (okResult cfg i d op (Context.start a) (contextAfter a op d.format ops t.off)) := by
  cases hf : formatDecoder cfg d.format with
  | none => exact absurd (formatDecoder_eq_none hf) hformat
  | some f =>
    simp only [transaction, hlookup, hf, formatDecoder_reads hf a]
    cases readOperands cfg (a &&& pageMask) op d.format ⟨rest, 1⟩ <;> rfl

/-- The record of the operands read, written out (R20, R228). -/
theorem okResult_contextAfter (cfg : Config) (i : Nat) (d : Descriptor) (op : Byte) (a : Word) (ops : List Operand) (n : Nat) :
    okResult cfg i d op (Context.start a) (contextAfter a op d.format ops n) =
      record cfg a i d.mnemonic d.format op (writesWidth d.format && wordFlag op) ops
        (joinComma (ops.map Operand.text)) n := by
  rw [okResult, compose_eq_lineOf]
  rfl

/-- Operands that are read end the transaction with `OK` and their record. -/
theorem transaction_of_read {cfg : Config} {op : Byte} {i : Nat} {d : Descriptor}
    (hlookup : lookup cfg.optable op = some (i, d)) (hformat : d.format ≠ .unknown) {a : Word} {rest : List Byte}
    {ops : List Operand} {t : Stream} (hread : readOperands cfg (a &&& pageMask) op d.format ⟨rest, 1⟩ = .ok (ops, t)) :
    transaction cfg ⟨a, op :: rest⟩ = .ok (record cfg a i d.mnemonic d.format op (writesWidth d.format && wordFlag op) ops
      (joinComma (ops.map Operand.text)) t.off) := by
  rw [transaction_of_lookup hlookup hformat, hread]
  exact congrArg TxOutcome.ok (okResult_contextAfter cfg i d op a ops t.off)

/-- Every format reads only a first part of the window, and fails only at the window's end (R32, R252). -/
theorem readOperands_honest (cfg : Config) (page : Word) (op : Byte) (fmt : Format) :
    Honest (readOperands cfg page op fmt) := by
  cases fmt with
  | unknown | reserved | noOperand | screen => exact .pure []
  | literal lit =>
    cases lit with
    | byte => exact .bind .next8 fun v => .pure [Operand.imm8 v]
    | word => exact .bind .next16 fun v => .pure [Operand.imm16 v]
  | branch =>
    exact .bind .next8 fun low => .pure [Operand.target (branchTarget page (op.extractLsb' 0 5 ++ low))]
  | oneOperand => exact .bind .srcDst fun o => .pure [o.operand]
  | twoOperand =>
    exact .bind .srcDst fun dst => .bind (.source (immediateFlag op) (wordFlag op)) fun src =>
      .pure [src.operandOf, dst.operand]
  | move =>
    exact .bind (.count _) fun a => .bind (.slot _ _) fun b => .bind (.slot _ _) fun c =>
      .pure [a.operandOf, b.operandOf, slotCOperand cfg op c]

/-- A window that ends inside the bytes that the format reads is truncated at its end (R238, R252). -/
theorem transaction_take {cfg : Config} {op : Byte} {i : Nat} {d : Descriptor}
    (hlookup : lookup cfg.optable op = some (i, d)) (hformat : d.format ≠ .unknown) {a : Word} {used : List Byte}
    {ops : List Operand} {n m : Nat}
    (hread : readOperands cfg (a &&& pageMask) op d.format ⟨used, 1⟩ = .ok (ops, ⟨[], n⟩)) (hm : m < used.length) :
    transaction cfg ⟨a, op :: used.take m⟩ = .truncated (1 + m) := by
  rw [transaction_of_lookup hlookup hformat, (readOperands_honest cfg _ op d.format).take hread hm]

/-! ### Format 1 -/

/-- Format 1 reads the destination, then the source, and lists them the other way round (R110). -/
theorem readOperands_twoOperand {op : Byte} {dst : SrcDst} {src : Source} (hdst : dst.wf = true)
    (hsrc : src.wf (wordFlag op) = true) (himm : src.isLit = immediateFlag op) (cfg : Config) (page : Word)
    (rest : List Byte) :
    readOperands cfg page op .twoOperand ⟨dst.encode ++ src.encode ++ rest, 1⟩ =
      .ok ([src.operandOf, dst.operand], ⟨rest, 1 + dst.size + src.size⟩) := by
  simp only [readOperands, List.append_assoc, Stream.srcDst_encode hdst, bind, Except.bind, ← himm,
    Stream.source_encode hsrc]
  rfl

/-- Settles O30: `readOperands_twoOperand` gives the record of a whole window (`transaction_of_read`) and says which bytes a
shorter window ends inside (`transaction_take`). -/
theorem formatTwoOperand : Obligations.FormatTwoOperand := by
  intro cfg a op i d dst src hlookup hformat hdst hsrc himm
  have hroutine : d.format ≠ .unknown := by rw [hformat]; nofun
  have hread (rest : List Byte) : readOperands cfg (a &&& pageMask) op d.format ⟨dst.encode ++ src.encode ++ rest, 1⟩ =
      .ok ([src.operandOf, dst.operand], ⟨rest, 1 + dst.size + src.size⟩) := by
    rw [hformat]
    exact readOperands_twoOperand hdst hsrc himm cfg _ rest
  refine ⟨fun m hm => ?truncated, fun rest => ?whole⟩
  case truncated =>
    have hwhole := hread []
    rw [List.append_nil] at hwhole
    exact transaction_take hlookup hroutine hwhole
      (by rwa [List.length_append, dst.encode_length, src.encode_length])
  case whole =>
    rw [transaction_of_read hlookup hroutine (hread rest), hformat]
    rfl

/-! ### The twenty-two instructions -/

/-- The four opcode bytes of a format-1 group count on from its first, `I` worth 2 and `W` worth 1 (R53). -/
theorem defaultTable_twoOpcode_sum : ∀ d ∈ defaultTable, d.format = .twoOperand → ∀ imm w : Bool,
    twoOpcode d.lo imm w = d.lo + (if imm then 2 else 0) + if w then 1 else 0 := by decide +kernel

/-- The meaning of a format-1 entry of the default ROM in a context (R110). -/
theorem twoOperandOp_of_entry {s : State} {c : Context} (h : s.ctx = some c) {k : Nat} {mnemonic : Text} {lo hi : Byte}
    (hentry : defaultTable[k]? = some ⟨mnemonic, lo, hi, .twoOperand⟩) (w : Bool) (dst : SrcDst) (src : Source) :
    twoOperandOp k w dst src s = .next (s.finish (twoOutcome c k mnemonic lo w dst src)) := by
  have hrom : romEntry k = ⟨mnemonic, lo, hi, .twoOperand⟩ := by
    rw [romEntry, List.getD_eq_getElem?_getD, hentry, Option.getD_some]
  rw [twoOperandOp, complete_of_ctx h, okResult_decoded, compose_eq_lineOf, hrom,
    defaultTable_twoOpcode_sum _ (List.mem_of_getElem? hentry) rfl, twoOutcome, record, List.append_assoc]
  rfl

/-- Settles O44: each of the twenty-two meanings is the format-1 decoder on its entry of the default ROM
(`twoOperandOp_of_entry`). -/
theorem twoOperandInstructionsComplete : Obligations.TwoOperandInstructionsComplete := by
  intro s c w dst src hctx
  simp only [List.forall_mem_cons, List.not_mem_nil, false_implies, implies_true, and_true]
  and_intros
  all_goals exact twoOperandOp_of_entry hctx rfl w dst src

end Sys2Proof.Machine
end

section
/-! Format 2, byte and word layout; then O26, O27 and O41. -/

namespace Sys2Proof.Machine

/-! ### What format 2 reads -/

/-- The byte layout reads one byte, whatever its value (R140). -/
theorem readOperands_byteLiteral (cfg : Config) (page : Word) (op v : Byte) (rest : List Byte) :
    readOperands cfg page op (.literal .byte) ⟨v :: rest, 1⟩ = .ok ([.imm8 v], ⟨rest, 2⟩) := rfl

/-- The word layout reads two bytes, the first one high, and adds no page to them (R141). -/
theorem readOperands_wordLiteral (cfg : Config) (page : Word) (op hi lo : Byte) (rest : List Byte) :
    readOperands cfg page op (.literal .word) ⟨hi :: lo :: rest, 1⟩ = .ok ([.imm16 (hi ++ lo)], ⟨rest, 3⟩) := rfl

/-- Settles O26: `readOperands_byteLiteral` gives the record of a whole window (`transaction_of_read`), and the window without
the literal is a whole one cut after the opcode byte (`transaction_take`). -/
theorem formatByteLiteral : Obligations.FormatByteLiteral := by
  intro cfg a op i d hlookup hformat
  have hroutine : d.format ≠ .unknown := by rw [hformat]; nofun
  have hread (v : Byte) (rest : List Byte) :
      readOperands cfg (a &&& pageMask) op d.format ⟨v :: rest, 1⟩ = .ok ([.imm8 v], ⟨rest, 2⟩) := by
    rw [hformat]
    exact readOperands_byteLiteral cfg _ op v rest
  refine ⟨?truncated, fun v rest => ?whole⟩
  case truncated => exact transaction_take (m := 0) hlookup hroutine (hread 0 []) (by decide)
  case whole =>
    rw [transaction_of_read hlookup hroutine (hread v rest), hformat]
    rfl

/-- Settles O27: as O26, from `readOperands_wordLiteral`; the window can end before either byte of the literal. -/
theorem formatWordLiteral : Obligations.FormatWordLiteral := by
  intro cfg a op i d hlookup hformat
  have hroutine : d.format ≠ .unknown := by rw [hformat]; nofun
  have hread (hi lo : Byte) (rest : List Byte) :
      readOperands cfg (a &&& pageMask) op d.format ⟨hi :: lo :: rest, 1⟩ = .ok ([.imm16 (hi ++ lo)], ⟨rest, 3⟩) := by
    rw [hformat]
    exact readOperands_wordLiteral cfg _ op hi lo rest
  refine ⟨?noLiteral, fun hi => ?highByteOnly, fun hi lo rest => ?whole⟩
  case noLiteral => exact transaction_take (m := 0) hlookup hroutine (hread 0 0 []) (by decide)
  case highByteOnly => exact transaction_take (m := 1) hlookup hroutine (hread hi 0 []) (Nat.lt_add_one 1)
  case whole =>
    rw [transaction_of_read hlookup hroutine (hread hi lo rest), hformat]
    rfl

/-! ### The seven instructions -/

/-- The format-2 decoder in a context, byte layout (R140). -/
theorem byteLiteralOp_of_ctx {s : State} {c : Context} (h : s.ctx = some c) (index : Nat) (v : Byte) :
    byteLiteralOp index v s =
      .next (s.finish (keepsFlag c index (romEntry index).mnemonic (romEntry index).format (romEntry index).lo [.imm8 v]
        ('>' :: hex2 v) 2)) :=
  complete_keepsFlag h index _ 2 fun _ => [.imm8 v]

/-- The format-2 decoder in a context, word layout (R141). -/
theorem wordLiteralOp_of_ctx {s : State} {c : Context} (h : s.ctx = some c) (index : Nat) (v : Word) :
    wordLiteralOp index v s =
      .next (s.finish (keepsFlag c index (romEntry index).mnemonic (romEntry index).format (romEntry index).lo [.imm16 v]
        ('>' :: hex4 v) 3)) :=
  complete_keepsFlag h index _ 3 fun _ => [.imm16 v]

/-- Settles O41: each of the seven meanings is the format-2 decoder on its entry of the default ROM, in the byte layout
(`byteLiteralOp_of_ctx`) or the word layout (`wordLiteralOp_of_ctx`). -/
theorem literalInstructionsComplete : Obligations.LiteralInstructionsComplete := by
  intro s c v u hctx
  simp only [List.forall_mem_cons, List.not_mem_nil, false_implies, implies_true, and_true]
  refine ⟨⟨?rand, ?back, ?all, ?parse, ?xml⟩, ?b, ?call⟩
  case rand => exact byteLiteralOp_of_ctx hctx 2 v
  case back => exact byteLiteralOp_of_ctx hctx 4 v
  case all => exact byteLiteralOp_of_ctx hctx 7 v
  case parse => exact byteLiteralOp_of_ctx hctx 14 v
  case xml => exact byteLiteralOp_of_ctx hctx 15 v
  case b => exact wordLiteralOp_of_ctx hctx 5 u
  case call => exact wordLiteralOp_of_ctx hctx 6 u

end Sys2Proof.Machine
end

section
/-! Formats 0, 3 and 7, which read nothing after the opcode byte; then O25 and O40. -/

namespace Sys2Proof.Machine

/-! ### What formats 0, 3 and 7 read -/

/-- Formats 0, 3 and 7 read nothing after the opcode byte (R100, R150, R220). -/
theorem readOperands_withoutOperand {fmt : Format} (h : fmt = .reserved ∨ fmt = .noOperand ∨ fmt = .screen) (cfg : Config)
    (page : Word) (op : Byte) (t : Stream) : readOperands cfg page op fmt t = .ok ([], t) := by
  rcases h with rfl | rfl | rfl
  all_goals rfl

/-- Formats 0, 3 and 7 do not write the width flag (R17). -/
theorem writesWidth_withoutOperand {fmt : Format} (h : fmt = .reserved ∨ fmt = .noOperand ∨ fmt = .screen) :
    writesWidth fmt = false := by
  rcases h with rfl | rfl | rfl
  all_goals rfl

/-- Settles O25: `readOperands_withoutOperand` leaves all of the window after the opcode byte unread, so every window has the
same record (`transaction_of_read`), with the flag 0 (`writesWidth_withoutOperand`). -/
theorem formatsWithoutOperand : Obligations.FormatsWithoutOperand := by
  intro cfg a op rest i d hlookup hformat
  have hroutine : d.format ≠ .unknown := by rcases hformat with h | h | h <;> simp [h]
  rw [transaction_of_read hlookup hroutine (readOperands_withoutOperand hformat cfg _ op ⟨rest, 1⟩),
    writesWidth_withoutOperand hformat]
  rfl

/-! ### The thirteen instructions -/

/-- The format-3 decoder in a context (R150). -/
theorem plainOp_of_ctx {s : State} {c : Context} (h : s.ctx = some c) (index : Nat) :
    plainOp index s = .next (s.finish
      (plainOutcome c index (romEntry index).mnemonic (romEntry index).format (romEntry index).lo)) :=
  complete_keepsFlag h index _ 1 fun _ => []

/-- The format-7 decoder in a context (R220). -/
theorem screenOp_of_ctx {s : State} {c : Context} (h : s.ctx = some c) (index : Nat) :
    screenOp index s = .next (s.finish
      (plainOutcome c index (romEntry index).mnemonic (romEntry index).format (romEntry index).lo)) :=
  complete_keepsFlag h index _ 1 fun _ => []

/-- Settles O40: each of the twelve meanings is the format-3 decoder on its entry of the default ROM (`plainOp_of_ctx`), and
`FMT` is the format-7 decoder on its entry (`screenOp_of_ctx`). -/
theorem noOperandInstructionsComplete : Obligations.NoOperandInstructionsComplete := by
  intro s c hctx
  simp only [List.forall_mem_cons, List.not_mem_nil, false_implies, implies_true, and_true]
  refine ⟨⟨?rtn, ?rtnc, ?scan, ?h, ?gt, ?exit, ?carry, ?ovf, ?cont, ?exec, ?rtnb, ?rtgr⟩, ?fmt⟩
  case rtn => exact plainOp_of_ctx hctx 0
  case rtnc => exact plainOp_of_ctx hctx 1
  case scan => exact plainOp_of_ctx hctx 3
  case h => exact plainOp_of_ctx hctx 9
  case gt => exact plainOp_of_ctx hctx 10
  case exit => exact plainOp_of_ctx hctx 11
  case carry => exact plainOp_of_ctx hctx 12
  case ovf => exact plainOp_of_ctx hctx 13
  case cont => exact plainOp_of_ctx hctx 16
  case exec => exact plainOp_of_ctx hctx 17
  case rtnb => exact plainOp_of_ctx hctx 18
  case rtgr => exact plainOp_of_ctx hctx 19
  case fmt => exact screenOp_of_ctx hctx 8

end Sys2Proof.Machine
end

section
/-! Format 4: where the target of a branch lies and what the format reads, with the opcode bytes of its two groups; then O28 and
O42. -/

namespace Sys2Proof.Machine

/-! ### The page and the target -/

/-- The page of an address keeps its top three bits: pages are 0x2000 bytes long (R170). -/
theorem page_toNat (a : Word) : (a &&& pageMask).toNat = a.toNat / 0x2000 * 0x2000 := by
  have hshift : a &&& pageMask = a >>> 13 <<< 13 := by
    apply BitVec.eq_of_getLsbD_eq
    intro i hi
    rw [BitVec.getLsbD_and, BitVec.getLsbD_shiftLeft, BitVec.getLsbD_ushiftRight, pageMask]
    interval_cases i <;> simp
  rw [hshift, BitVec.toNat_shiftLeft, BitVec.toNat_ushiftRight, Nat.shiftRight_eq_div_pow, Nat.shiftLeft_eq]
  omega

/-- The displacement is below the length of a page, so the sum with the page does not carry (R170). -/
theorem branchTarget_toNat (a : Word) (disp : BitVec 13) :
    (branchTarget (a &&& pageMask) disp).toNat = disp.toNat + a.toNat / 0x2000 * 0x2000 := by
  have hwide : (disp.setWidth 16).toNat = disp.toNat := BitVec.toNat_setWidth_of_le (by decide)
  rw [branchTarget, BitVec.toNat_add, hwide, page_toNat]
  omega

/-- The target stays in the page of the instruction's own address (R170). -/
theorem branchTarget_page (a : Word) (disp : BitVec 13) :
    branchTarget (a &&& pageMask) disp &&& pageMask = a &&& pageMask := by
  apply BitVec.eq_of_toNat_eq
  rw [page_toNat, page_toNat, branchTarget_toNat]
  omega

/-! ### What format 4 reads -/

/-- The displacement as a number: the opcode byte's bits 7 to 5 fall out of it (R170). -/
theorem displacement_toNat (op low : Byte) :
    (op.extractLsb' 0 5 ++ low).toNat = (op.toNat * 256 + low.toNat) % 0x2000 := by
  rw [append_toNat, field_toNat]
  omega

/-- Format 4 reads one byte, the low part of the displacement (R170). -/
theorem readOperands_branch (cfg : Config) (page : Word) (op low : Byte) (rest : List Byte) :
    readOperands cfg page op .branch ⟨low :: rest, 1⟩ =
      .ok ([.target (branchTarget page (op.extractLsb' 0 5 ++ low))], ⟨rest, 2⟩) := rfl

/-- Settles O28: `readOperands_branch` gives the record of a whole window (`transaction_of_read`) and the cut one
(`transaction_take`); the target's number is `branchTarget_toNat`, its page `branchTarget_page`. -/
theorem formatBranch_target : Obligations.FormatBranch := by
  intro cfg a op i d hlookup hformat
  have hroutine : d.format ≠ .unknown := by rw [hformat]; nofun
  have hread (low : Byte) (rest : List Byte) : readOperands cfg (a &&& pageMask) op d.format ⟨low :: rest, 1⟩ =
      .ok ([.target (branchTarget (a &&& pageMask) (op.extractLsb' 0 5 ++ low))], ⟨rest, 2⟩) := by
    rw [hformat]
    exact readOperands_branch cfg _ op low rest
  refine ⟨?truncated, fun low rest => ⟨_, ?number, branchTarget_page a (op.extractLsb' 0 5 ++ low), ?whole⟩⟩
  case truncated => exact transaction_take (m := 0) hlookup hroutine (hread 0 []) (by decide)
  case number => rw [branchTarget_toNat, displacement_toNat]
  case whole =>
    rw [transaction_of_read hlookup hroutine (hread low rest), hformat]
    rfl

/-! ### The two instructions -/

/-- The 32 opcode bytes of a format-4 group count on from its first (R53). -/
theorem defaultTable_branch_sum : ∀ d ∈ defaultTable, d.format = .branch → ∀ high : BitVec 5,
    d.lo ||| (0#3 ++ high) = d.lo + high.setWidth 8 := by decide +kernel

/-- The high part of the displacement, as the opcode byte carries it (R170). -/
theorem displacement_high (disp : BitVec 13) :
    (disp.extractLsb' 8 5).setWidth 8 = BitVec.ofNat 8 (disp.toNat / 256) := by
  apply BitVec.eq_of_toNat_eq
  rw [BitVec.toNat_setWidth, field_toNat, BitVec.toNat_ofNat]
  omega

/-- The format-4 decoder in a context: the target is reported in the context's page (R170). -/
theorem branchOp_of_ctx {s : State} {c : Context} (h : s.ctx = some c) {k : Nat} (hk : k < 61)
    (hformat : (romEntry k).format = .branch) (disp : BitVec 13) :
    branchOp k disp s = .next (s.finish (branchOutcome c k (romEntry k).mnemonic (romEntry k).lo disp)) := by
  have hopcode : branchOpcode (romEntry k).lo disp = (romEntry k).lo + BitVec.ofNat 8 (disp.toNat / 256) := by
    rw [← displacement_high]
    exact defaultTable_branch_sum _ (romEntry_mem hk) hformat _
  rw [branchOp, complete_keepsFlag h, hformat, hopcode]
  rfl

/-- Settles O42: both meanings are the format-4 decoder on their entry of the default ROM (`branchOp_of_ctx`). -/
theorem branchInstructionsComplete : Obligations.BranchInstructionsComplete := by
  intro s c disp hctx
  refine ⟨?br, ?bs⟩
  case br => exact branchOp_of_ctx hctx (k := 22) (by decide) rfl disp
  case bs => exact branchOp_of_ctx hctx (k := 23) (by decide) rfl disp

end Sys2Proof.Machine
end

section
/-! Format 5: what it reads, whatever the width flag, and the opcode bytes of its pairs; then O29 and O43. -/

namespace Sys2Proof.Machine

/-! ### What format 5 reads -/

/-- Format 5 reads one operand of any form; the opcode byte, and with it `W`, changes nothing in it (R180). -/
theorem readOperands_oneOperand {o : SrcDst} (ho : o.wf = true) (cfg : Config) (page : Word) (op : Byte) (rest : List Byte) :
    readOperands cfg page op .oneOperand ⟨o.encode ++ rest, 1⟩ = .ok ([o.operand], ⟨rest, 1 + o.size⟩) := by
  rw [readOperands, Stream.srcDst_encode ho]
  rfl

/-- Settles O29: `readOperands_oneOperand` gives the record of a whole window (`transaction_of_read`) and says which bytes a
shorter window ends inside (`transaction_take`). -/
theorem formatOneOperand : Obligations.FormatOneOperand := by
  intro cfg a op i d o hlookup hformat ho
  have hroutine : d.format ≠ .unknown := by rw [hformat]; nofun
  have hread (rest : List Byte) : readOperands cfg (a &&& pageMask) op d.format ⟨o.encode ++ rest, 1⟩ =
      .ok ([o.operand], ⟨rest, 1 + o.size⟩) := by
    rw [hformat]
    exact readOperands_oneOperand ho cfg _ op rest
  refine ⟨fun m hm => ?truncated, fun rest => ?whole⟩
  case truncated =>
    have hwhole := hread []
    rw [List.append_nil] at hwhole
    exact transaction_take hlookup hroutine hwhole (by rwa [o.encode_length])
  case whole =>
    rw [transaction_of_read hlookup hroutine (hread rest), hformat]
    rfl

/-! ### The twelve instructions -/

/-- The two opcode bytes of a format-5 pair count on from its first, `W` worth 1 (R53). -/
theorem defaultTable_oneOpcode_sum : ∀ d ∈ defaultTable, d.format = .oneOperand → ∀ w : Bool,
    oneOpcode d.lo w = d.lo + if w then 1 else 0 := by decide +kernel

/-- The format-5 decoder in a context, on an entry of the default ROM (R180). -/
theorem oneOperandOp_of_ctx {s : State} {c : Context} (h : s.ctx = some c) {k : Nat} (hk : k < 61)
    (hformat : (romEntry k).format = .oneOperand) (w : Bool) (o : SrcDst) :
    oneOperandOp k w o s = .next (s.finish (oneOutcome c k (romEntry k).mnemonic (romEntry k).lo w o)) := by
  rw [oneOperandOp, complete_of_ctx h, okResult_decoded, compose_eq_lineOf, hformat,
    defaultTable_oneOpcode_sum _ (romEntry_mem hk) hformat]
  rfl

/-- Settles O43: each of the twelve meanings is the format-5 decoder on its entry of the default ROM
(`oneOperandOp_of_ctx`). -/
theorem oneOperandInstructionsComplete : Obligations.OneOperandInstructionsComplete := by
  intro s c w o hctx
  simp only [List.forall_mem_cons, List.not_mem_nil, false_implies, implies_true, and_true]
  and_intros
  all_goals exact oneOperandOp_of_ctx hctx (by decide) rfl w o

end Sys2Proof.Machine
end

section
/-! The decode routines beside the format decoders: each reads the same bytes, and the meaning of what it reads makes the same
record; then O8. -/

namespace Sys2Proof.Machine

/-! ### A meaning and the operands read -/

/-- Two readings from the bytes after the opcode byte `op` of entry `k`, one of an instruction and one of operands, agree: both
fail at one offset, or both stop at one place and the meaning, run in `s`, ends the transaction with the record of the
operands. -/
inductive SameReading (a : Word) (op : Byte) (k : Nat) (s : State) :
    Except Nat (Instr × Stream) → Except Nat (List Operand × Stream) → Prop
  | error (e : Nat) : SameReading a op k s (.error e) (.error e)
  | ok {i : Instr} {ops : List Operand} {t : Stream}
      (h : exec i s = .next (s.finish (.ok (okResult Config.default k (romEntry k) op (Context.start a)
        (contextAfter a op (romEntry k).format ops t.off))))) :
      SameReading a op k s (.ok (i, t)) (.ok (ops, t))

/-- Two readings that begin by reading the same thing agree when they agree from there on. -/
theorem SameReading.bind {α : Type} {a : Word} {op : Byte} {k : Nat} {s : State} {x : Except Nat (α × Stream)}
    {F : α × Stream → Except Nat (Instr × Stream)} {G : α × Stream → Except Nat (List Operand × Stream)}
    (h : ∀ v t, x = .ok (v, t) → SameReading a op k s (F (v, t)) (G (v, t))) :
    SameReading a op k s (x >>= F) (x >>= G) := by
  rcases x with e | ⟨v, t⟩
  · exact .error e
  · exact h v t rfl

/-- A completion of a fresh context that writes the width flag as its format does (R17) makes the record of its operands. -/
theorem SameReading.complete {a : Word} {op : Byte} {k : Nat} {s : State} (hctx : s.ctx = some (Context.start a)) {i : Instr}
    {n : Nat} {w : Option Bool} {ops : Context → List Operand} {t : Stream}
    (hexec : exec i s = complete k op n w ops s) (hoff : t.off = n)
    (hwidth : w.getD false = (writesWidth (romEntry k).format && wordFlag op)) :
    SameReading a op k s (.ok (i, t)) (.ok (ops (Context.start a), t)) := by
  refine .ok ?_
  rw [hexec, complete_of_ctx hctx, hoff, contextAfter, ← hwidth]
  simp [Context.decoded]

/-! ### The routines -/

/-- On the opcode bytes of entry `k` the routine agrees with what the entry's format reads, in every fresh context. -/
def FollowsFormat (k : Nat) (r : Routine) : Prop :=
  ∀ (a : Word) (op : Byte) (rest : List Byte) (s : State), (romEntry k).covers op = true → s.ctx = some (Context.start a) →
    SameReading a op k s (r op ⟨rest, 1⟩)
      (readOperands Config.default (a &&& pageMask) op (romEntry k).format ⟨rest, 1⟩)

/-- A reader of one byte alone answers an instruction whose encoding is that byte, and whose meaning completes with it (R100,
R150, R220). -/
theorem FollowsFormat.none {k : Nat} {mk : Byte → Instr}
    (hformat : (romEntry k).format = .reserved ∨ (romEntry k).format = .noOperand ∨ (romEntry k).format = .screen)
    (hencode : ∀ op, (romEntry k).covers op = true → encode (mk op) = [op])
    (hexec : ∀ op s, exec (mk op) s = complete k ((encode (mk op)).headD 0) 1 none (fun _ => []) s) :
    FollowsFormat k (readNone mk) := by
  intro a op rest s hcovers hctx
  have hmeaning := hexec op s
  rw [hencode op hcovers] at hmeaning
  rw [readOperands_withoutOperand hformat]
  exact .complete hctx hmeaning rfl (by rw [writesWidth_withoutOperand hformat]; rfl)

theorem FollowsFormat.byteLit {k : Nat} {mk : Byte → Instr} (hformat : (romEntry k).format = .literal .byte)
    (hsingle : (romEntry k).hi = (romEntry k).lo) (hexec : ∀ v s, exec (mk v) s = byteLiteralOp k v s) :
    FollowsFormat k (readByteLit mk) := by
  intro a op rest s hcovers hctx
  rw [hformat]
  refine .bind fun v t hread => ?_
  obtain ⟨-, hoff⟩ := Stream.next8_ok hread
  rw [Descriptor.eq_of_covers hsingle hcovers]
  exact .complete hctx (hexec v s) hoff (by rw [hformat]; rfl)

theorem FollowsFormat.wordLit {k : Nat} {mk : Word → Instr} (hformat : (romEntry k).format = .literal .word)
    (hsingle : (romEntry k).hi = (romEntry k).lo) (hexec : ∀ v s, exec (mk v) s = wordLiteralOp k v s) :
    FollowsFormat k (readWordLit mk) := by
  intro a op rest s hcovers hctx
  rw [hformat]
  refine .bind fun v t hread => ?_
  obtain ⟨-, hoff⟩ := Stream.next16_ok hread
  rw [Descriptor.eq_of_covers hsingle hcovers]
  exact .complete hctx (hexec v s) hoff (by rw [hformat]; rfl)

theorem FollowsFormat.branch {k : Nat} (hk : k < 61) {mk : BitVec 13 → Instr} (hformat : (romEntry k).format = .branch)
    (hexec : ∀ disp s, exec (mk disp) s = branchOp k disp s) : FollowsFormat k (readBranch mk) := by
  intro a op rest s hcovers hctx
  rw [hformat]
  refine .bind fun low t hread => ?_
  obtain ⟨-, hoff⟩ := Stream.next8_ok hread
  obtain ⟨hhigh, -⟩ := fields_of_displacement (op.extractLsb' 0 5) low
  have hop : branchOpcode (romEntry k).lo (op.extractLsb' 0 5 ++ low) = op := by
    rw [branchOpcode, hhigh, defaultTable_branchField _ (romEntry_mem hk) hformat op hcovers]
  have hmeaning := hexec (op.extractLsb' 0 5 ++ low) s
  rw [branchOp, hop] at hmeaning
  exact .complete hctx hmeaning hoff (by rw [hformat]; rfl)

theorem FollowsFormat.one {k : Nat} (hk : k < 61) {mk : Bool → SrcDst → Instr}
    (hformat : (romEntry k).format = .oneOperand) (hexec : ∀ w o s, exec (mk w o) s = oneOperandOp k w o s) :
    FollowsFormat k (readOne mk) := by
  intro a op rest s hcovers hctx
  rw [hformat]
  refine .bind fun o t hread => ?_
  obtain ⟨-, -, hoff⟩ := Stream.srcDst_ok hread
  have hmeaning := hexec (wordFlag op) o s
  rw [oneOperandOp, defaultTable_oneOpcode _ (romEntry_mem hk) hformat op hcovers] at hmeaning
  exact .complete hctx hmeaning hoff (by rw [hformat]; rfl)

theorem FollowsFormat.two {k : Nat} (hk : k < 61) {mk : Bool → SrcDst → Source → Instr}
    (hformat : (romEntry k).format = .twoOperand) (hexec : ∀ w dst src s, exec (mk w dst src) s = twoOperandOp k w dst src s) :
    FollowsFormat k (readTwo mk) := by
  intro a op rest s hcovers hctx
  rw [hformat]
  refine .bind fun dst t1 hdst => .bind fun src t2 hsrc => ?_
  obtain ⟨-, -, hoff1⟩ := Stream.srcDst_ok hdst
  obtain ⟨-, hlit, -, hoff2⟩ := Stream.source_ok hsrc
  have hmeaning := hexec (wordFlag op) dst src s
  rw [twoOperandOp, hlit, defaultTable_twoOpcode _ (romEntry_mem hk) hformat op hcovers] at hmeaning
  exact .complete hctx hmeaning (by rw [hoff2, hoff1]) (by rw [hformat]; rfl)

theorem FollowsFormat.move : FollowsFormat 21 readMove := by
  intro a op rest s hcovers hctx
  refine .bind fun sa t1 ha => .bind fun sb t2 hb => .bind fun sc t3 hc => ?_
  obtain ⟨-, -, hoff1⟩ := Stream.count_ok ha
  obtain ⟨-, -, hoff2⟩ := Stream.slot_ok hb
  obtain ⟨-, -, hoff3⟩ := Stream.slot_ok hc
  have hmeaning : exec (.move (op.extractLsb' 0 5) sa sb sc) s = execMove (op.extractLsb' 0 5) sa sb sc s := rfl
  rw [execMove, romEntry_moveOpcode op hcovers] at hmeaning
  exact .complete hctx hmeaning (by rw [hoff3, hoff2, hoff1]) rfl

/-- Both rows of descriptor 20 complete with the byte that encodes them (R101). -/
theorem exec_xgpl20 (op : Byte) (s : State) :
    let i := if op < 0x18 then Instr.xgpl14 (op.extractLsb' 0 2) else .xgpl18 (op.extractLsb' 0 3)
    exec i s = complete 20 ((encode i).headD 0) 1 none (fun _ => []) s := by
  dsimp only
  split <;> rfl

/-- Every routine of the default ROM, by its format. -/
theorem routines_followFormat : ∀ (k : Nat) (hk : k < routines.length), FollowsFormat k routines[k]
  | 0, _ | 1, _ | 3, _ | 8, _ | 9, _ | 10, _ | 11, _ | 12, _ | 13, _ | 16, _ | 17, _ | 18, _ | 19, _
  | 36, _ | 57, _ | 60, _ => .none (by decide) (by decide +kernel) fun _ _ => rfl
  | 20, _ => .none (by decide) (by decide +kernel) exec_xgpl20
  | 2, _ | 4, _ | 7, _ | 14, _ | 15, _ => .byteLit rfl rfl fun _ _ => rfl
  | 5, _ | 6, _ => .wordLit rfl rfl fun _ _ => rfl
  | 21, _ => .move
  | 22, hk | 23, hk => .branch hk rfl fun _ _ => rfl
  | 24, hk | 25, hk | 26, hk | 27, hk | 28, hk | 29, hk | 30, hk | 31, hk | 32, hk | 33, hk | 34, hk | 35, hk =>
    .one hk rfl fun _ _ _ => rfl
  | 37, hk | 38, hk | 39, hk | 40, hk | 41, hk | 42, hk | 43, hk | 44, hk | 45, hk | 46, hk | 47, hk | 48, hk | 49, hk
  | 50, hk | 51, hk | 52, hk | 53, hk | 54, hk | 55, hk | 56, hk | 58, hk | 59, hk =>
    .two hk rfl fun _ _ _ _ => rfl
  | k + 61, hk => absurd hk (by rw [routines_length]; omega)

/-! ### The two machines -/

/-- Every opcode byte is in the range of an entry of the default ROM (R55). -/
theorem exists_romEntry_covers (op : Byte) : ∃ k < 61, (romEntry k).covers op = true := by
  obtain ⟨k, d, hlookup, -⟩ := lookup_of_tableTotal default_tableTotal op
  have hentry : defaultTable[k]? = some d := lookup_getElem? hlookup
  obtain ⟨hk, -⟩ := List.getElem?_eq_some_iff.1 hentry
  obtain rfl : romEntry k = d := Option.some.inj ((defaultTable_getElem? hk).symm.trans hentry)
  exact ⟨k, hk, lookup_covers hlookup⟩

/-- A routine that follows its format settles as the transaction of the spec's pseudocode ends. -/
theorem FollowsFormat.settle {k : Nat} (hk : k < routines.length) (h : FollowsFormat k routines[k]) {a : Word} {op : Byte}
    (rest : List Byte) {s : State} (hcovers : (romEntry k).covers op = true) (hctx : s.ctx = some (Context.start a)) :
    settle (runRoutine k op rest) s = .next (s.finish (transaction Config.default ⟨a, op :: rest⟩)) := by
  have hlookup : lookup Config.default.optable op = some (k, romEntry k) := lookup_defaultTable hk hcovers
  have hsame := h a op rest s hcovers hctx
  simp only [transaction_of_lookup hlookup (defaultTable_format _ (romEntry_mem hk)), runRoutine,
    List.getElem?_eq_getElem hk]
  generalize routines[k] op ⟨rest, 1⟩ = reading at hsame ⊢
  generalize readOperands _ _ _ _ _ = operands at hsame ⊢
  cases hsame with
  | error e => rfl
  | ok hexec => exact hexec

/-- In a fresh context, what the window decodes to settles as the transaction of the spec's pseudocode ends. -/
theorem settle_decode {s : State} {rq : Request} (hctx : s.ctx = some (Context.start rq.address)) :
    settle (decode rq.bytes) s = .next (s.finish (transaction Config.default rq)) := by
  rcases rq with ⟨a, _ | ⟨op, rest⟩⟩
  · rfl
  · obtain ⟨k, hk, hcovers⟩ := exists_romEntry_covers op
    rw [decode_of_covers hk hcovers]
    exact (routines_followFormat k hk).settle hk rest hcovers hctx

theorem stepWith_of_request {s : State} {rq : Request} (h : s.request = some rq) (cfg : Config) :
    stepWith cfg s = .next ((s.begin rq).finish (transaction cfg rq)) := by
  simp [stepWith, h]

/-- Settles O8: with nothing handed over both machines are idle; otherwise both take the request up, and every routine of the
decoder follows the format decoder of its entry (`routines_followFormat`, `settle_decode`). -/
theorem stepAgreesWithSpecTransaction : Obligations.StepAgreesWithSpecTransaction := by
  intro s
  cases hrq : s.request with
  | none => rw [step_of_no_request hrq, stepWith, hrq]
  | some rq => rw [step_of_request hrq, stepWith_of_request hrq, settle_decode (s.begin_ctx rq)]

end Sys2Proof.Machine
end

section
/-! What a transaction needs of its window: the bytes its format uses, whatever follows them, and the place where a shorter window
ends; then O12, O32 and O33. -/

namespace Sys2Proof.Machine

/-! ### The bytes a transaction uses -/

/-- An outcome `OK` rests on a first part of the window, the opcode byte and the bytes the format uses, whose length is the
record's; whatever follows it the reading is the same (R32, R228). -/
theorem transaction_ok_used {cfg : Config} {a : Word} {bytes : List Byte} {r : Result}
    (h : transaction cfg ⟨a, bytes⟩ = .ok r) :
    ∃ op i d used rest ops, bytes = op :: used ++ rest ∧ lookup cfg.optable op = some (i, d) ∧ d.format ≠ .unknown ∧
      r.length = (op :: used).length ∧
      (∀ rest', readOperands cfg (a &&& pageMask) op d.format ⟨used ++ rest', 1⟩ = .ok (ops, ⟨rest', r.length⟩)) ∧
      ∀ rest', transaction cfg ⟨a, op :: used ++ rest'⟩ = .ok r := by
  obtain ⟨op, rest, i, d, f, c, rfl, hlookup, hf, -, -⟩ := transaction_ok h
  have hformat : d.format ≠ .unknown := by
    intro hunknown
    rw [hunknown] at hf
    cases hf
  rw [transaction_of_lookup hlookup hformat] at h
  have hhonest := readOperands_honest cfg (a &&& pageMask) op d.format ⟨rest, 1⟩
  rcases hread : readOperands cfg (a &&& pageMask) op d.format ⟨rest, 1⟩ with e | ⟨ops, t⟩
  · rw [hread] at h
    cases h
  · rw [hread] at h hhonest
    cases h
    obtain ⟨used, hused, hoff, hagain⟩ := hhonest
    refine ⟨op, i, d, used, t.rest, ops, congrArg (op :: ·) hused, hlookup, hformat, ?_, hagain, fun rest' => ?_⟩
    · simp [okResult, contextAfter, hoff, Nat.add_comm]
    · rw [List.cons_append, transaction_of_lookup hlookup hformat, hagain]

/-- All that a transaction that ends with `TRUNCATED` has met: an empty window, or a format that could not read on (R252). -/
theorem transaction_truncated {cfg : Config} {rq : Request} {k : Nat} (h : transaction cfg rq = .truncated k) :
    (rq.bytes = [] ∧ k = 0) ∨ ∃ op rest fmt, rq.bytes = op :: rest ∧
      readOperands cfg (rq.address &&& pageMask) op fmt ⟨rest, 1⟩ = .error k := by
  rcases rq with ⟨a, _ | ⟨op, rest⟩⟩
  · cases h
    exact .inl ⟨rfl, rfl⟩
  · cases hlookup : lookup cfg.optable op with
    | none => simp [transaction, hlookup] at h
    | some entry =>
      obtain ⟨i, d⟩ := entry
      by_cases hformat : d.format = .unknown
      · simp [transaction, hlookup, hformat, formatDecoder] at h
      · rw [transaction_of_lookup hlookup hformat] at h
        refine .inr ⟨op, rest, d.format, rfl, ?_⟩
        split at h
        case h_1 e hread =>
          cases h
          exact hread
        case h_2 => cases h

/-! ### The statements -/

/-- Settles O33: the empty window ends at 0, and a format fails to read only at the end of the window
(`readOperands_honest`). -/
theorem truncationOffsetIsWindowLength : Obligations.TruncationOffsetIsWindowLength := by
  intro cfg rq k h
  rcases transaction_truncated h with ⟨hempty, rfl⟩ | ⟨op, rest, fmt, hbytes, hread⟩
  · rw [hempty, List.length_nil]
  · rw [(readOperands_honest cfg _ op fmt).error_eq hread, hbytes, List.length_cons, Nat.add_comm]

/-- Settles O32: the transaction rests on the first `L` bytes (`transaction_ok_used`); a window that shares them gives the same
record, and one cut inside them is truncated at its end (`transaction_take`). -/
theorem windowMonotonicity : Obligations.WindowMonotonicity := by
  intro cfg a bytes r h
  obtain ⟨op, i, d, used, rest, ops, rfl, hlookup, hformat, hlength, hread, hagain⟩ := transaction_ok_used h
  refine ⟨fun bytes' hsame => ?same, fun m hpos hm => ?shorter⟩
  case same =>
    rw [hlength, List.take_left] at hsame
    rw [← List.take_append_drop (op :: used).length bytes', hsame]
    exact hagain _
  case shorter =>
    cases m with
    | zero => exact absurd hpos (Nat.lt_irrefl 0)
    | succ m =>
      rw [hlength, List.length_cons, Nat.add_lt_add_iff_right] at hm
      have hwhole := hread []
      rw [List.append_nil] at hwhole
      rw [List.cons_append, List.take_succ_cons, List.take_append_of_le_length hm.le,
        transaction_take hlookup hformat hwhole hm, Nat.add_comm]

end Sys2Proof.Machine

namespace Sys2Proof

/-- Every routine uses only a first part of the window, and fails only at the window's end (R32, R252). -/
theorem FormatRoutine.honest {r : Routine} (h : FormatRoutine r) (op : Byte) : Honest (r op) := by
  cases h with
  | none mk => exact .pure (mk op)
  | byteLit mk => exact .bind .next8 fun v => .pure (mk v)
  | wordLit mk => exact .bind .next16 fun v => .pure (mk v)
  | branch mk => exact .bind .next8 fun lo => .pure (mk (op.extractLsb' 0 5 ++ lo))
  | one mk => exact .bind .srcDst fun o => .pure (mk (wordFlag op) o)
  | two mk =>
    exact .bind .srcDst fun dst => .bind (.source (immediateFlag op) (wordFlag op)) fun src => .pure (mk (wordFlag op) dst src)
  | move =>
    exact .bind (.count _) fun a => .bind (.slot _ _) fun b => .bind (.slot _ _) fun c =>
      .pure (Instr.move (op.extractLsb' 0 5) a b c)

/-- Settles O12: the empty part is the empty window; any other holds the opcode byte, whose routine reads the whole encoding
back (`exists_readsBack`) and so fails at the end of a part of it (`Honest.take`). -/
theorem partOfEncodingIsTruncated : Obligations.PartOfEncodingIsTruncated := by
  intro i m hwf hm
  cases m with
  | zero => rfl
  | succ m =>
    obtain ⟨k, r, op, body, hroutine, hcovers, hbytes, hreads⟩ := exists_readsBack i hwf
    rw [hbytes, List.length_cons, Nat.add_lt_add_iff_right] at hm
    have hhonest := (routines_formatRoutine r (List.mem_of_getElem? hroutine)).honest op
    have hwhole := hreads []
    rw [List.append_nil] at hwhole
    rw [hbytes, List.take_succ_cons, decode_of_covers (lt_of_routine hroutine) hcovers]
    simp [runRoutine, hroutine, hhonest.take hwhole hm, Nat.add_comm]

end Sys2Proof
end

section
/-! The first entry that a lookup finds, a table whose ranges are disjoint, and the byte without a decode routine; then O3, O14,
O16, O17 and O18. -/

namespace Sys2Proof

/-! ### The lookup -/

theorem lookup_eq_none_iff (table : List Descriptor) (op : Byte) :
    lookup table op = none ↔ ∀ d ∈ table, ¬ (d.lo ≤ op ∧ op ≤ d.hi) := by
  rw [← Option.map_eq_none_iff, lookup_index, List.findIdx?_eq_none_iff]
  simp only [← Descriptor.covers_iff, Bool.not_eq_true]

/-- A lookup finds the first entry whose range contains the byte (R225). -/
theorem lookup_eq_some_iff (table : List Descriptor) (op : Byte) (i : Nat) (d : Descriptor) :
    lookup table op = some (i, d) ↔ table[i]? = some d ∧ d.covers op = true ∧
      ∀ (j : Nat) (e : Descriptor), j < i → table[j]? = some e → ¬ e.covers op = true := by
  constructor
  · intro h
    exact ⟨lookup_getElem? h, lookup_covers h, fun j e hji hj he => Nat.not_lt_of_le (lookup_index_le h hj he) hji⟩
  · rintro ⟨hi, hcovers, hfirst⟩
    cases h : lookup table op with
    | none =>
      have hnone := (lookup_eq_none_iff table op).1 h d (List.mem_of_getElem? hi)
      exact absurd ((d.covers_iff op).1 hcovers) hnone
    | some entry =>
      obtain ⟨j, e⟩ := entry
      have hle : j ≤ i := lookup_index_le h hi hcovers
      rcases hle.lt_or_eq with hlt | rfl
      · exact absurd (lookup_covers h) (hfirst j e hlt (lookup_getElem? h))
      · rw [Option.some.inj ((lookup_getElem? h).symm.trans hi)]

/-- Where no two ranges overlap, no byte is in two of them. -/
theorem countP_covers_le_one {table : List Descriptor} (h : table.Pairwise fun d e => d.overlaps e = false) (op : Byte) :
    table.countP (fun d => d.covers op) ≤ 1 := by
  induction h with
  | nil => simp
  | @cons d ds hd _ ih =>
    rw [List.countP_cons]
    split
    case isFalse => exact ih
    case isTrue hcovers =>
      have hnone : ds.countP (fun e => e.covers op) = 0 := List.countP_eq_zero.2 fun e he hcovers' =>
        absurd (Descriptor.overlaps_of_covers hcovers hcovers') (by simp [hd e he])
      rw [hnone]

/-- Settles O14: the lookup is by its entry (`lookup_eq_some_iff`, `lookup_eq_none_iff`), and in a total table there is one with
a routine (`lookup_of_tableTotal`). -/
theorem lookupGivesFirstMatchingEntry : Obligations.LookupGivesFirstMatchingEntry := by
  refine ⟨fun _ _ => rfl, fun table op i d => ?_, lookup_eq_none_iff, fun cfg op htotal => lookup_of_tableTotal htotal op⟩
  simp only [lookup_eq_some_iff, Descriptor.covers_iff, and_assoc]

/-- Settles O16: no two of the ranges overlap (`countP_covers_le_one`), and every byte is in one (`exists_romEntry_covers`). -/
theorem defaultRangesCoverEachByteOnce : Obligations.DefaultRangesCoverEachByteOnce := by
  refine ⟨defaultTable_length, fun op => Nat.le_antisymm (countP_covers_le_one defaultTable_disjoint op) ?_⟩
  obtain ⟨k, hk, hcovers⟩ := Machine.exists_romEntry_covers op
  exact List.countP_pos_iff.2 ⟨romEntry k, romEntry_mem hk, hcovers⟩

end Sys2Proof

namespace Sys2Proof.Machine

/-! ### A byte without a routine -/

theorem transaction_of_no_entry {cfg : Config} {op : Byte} (h : lookup cfg.optable op = none) (a : Word) (rest : List Byte) :
    transaction cfg ⟨a, op :: rest⟩ = .unknown (unknownResult cfg none op) := by
  simp [transaction, h]

theorem transaction_of_no_routine {cfg : Config} {op : Byte} {i : Nat} {d : Descriptor}
    (h : lookup cfg.optable op = some (i, d)) (hformat : d.format = .unknown) (a : Word) (rest : List Byte) :
    transaction cfg ⟨a, op :: rest⟩ = .unknown (unknownResult cfg (some (i, d)) op) := by
  simp [transaction, h, hformat, formatDecoder]

/-- Settles O17: the record of either cause is the diagnostic of R234, with what matched. -/
theorem byteWithoutRoutineGivesDiagnostic : Obligations.ByteWithoutRoutineGivesDiagnostic :=
  ⟨fun _ a _ rest hlookup => transaction_of_no_entry hlookup a rest,
    fun _ a _ rest _ _ hlookup hformat => transaction_of_no_routine hlookup hformat a rest, fun _ => rfl⟩

/-- Settles O18: `UNKNOWN` has one of the two causes (`transaction_unknown`), and each of them gives it. -/
theorem unknownExactlyWithoutRoutine : Obligations.UnknownExactlyWithoutRoutine := by
  rintro cfg ⟨a, bytes⟩
  constructor
  · rintro ⟨r, hunknown⟩
    exact transaction_unknown hunknown
  · rintro ⟨op, rest, rfl, hnone | ⟨i, d, hlookup, hformat⟩⟩
    · exact ⟨_, transaction_of_no_entry hnone a rest⟩
    · exact ⟨_, transaction_of_no_routine hlookup hformat a rest⟩

/-- Settles O3. -/
theorem idleStepKeepsState : Obligations.IdleStepKeepsState := fun _ => step_of_no_request

end Sys2Proof.Machine
end

section
/-! Format 6: what it reads under any map, how many bytes each slot takes, and its meaning; then O31, O35 and O45. -/

namespace Sys2Proof

/-! ### The bytes of each slot -/

/-- The least and the greatest size of slot (a) (R202, R52 `A`). -/
def countSizes (numimm : Bool) : Nat × Nat := if numimm then (2, 2) else (1, 4)

/-- The least and the greatest size of slot (b) or (c) (R204, R205, R52 `B` and `C`). -/
def slotSizes (sel idx : Bool) : Nat × Nat := if sel then (1, 4) else if idx then (3, 3) else (2, 2)

theorem Count.size_of_wf {numimm : Bool} {a : Count} (h : a.wf numimm = true) :
    (countSizes numimm).1 ≤ a.size ∧ a.size ≤ (countSizes numimm).2 := by
  cases a with
  | lit v =>
    obtain rfl : numimm = true := h
    exact ⟨le_rfl, le_rfl⟩
  | operand o =>
    obtain ⟨rfl, -⟩ : numimm = false ∧ o.wf = true := by simpa [Count.wf] using h
    exact o.size_bounds

theorem Slot.size_of_wf {sel idx : Bool} {b : Slot} (h : b.wf sel idx = true) :
    (slotSizes sel idx).1 ≤ b.size ∧ b.size ≤ (slotSizes sel idx).2 := by
  cases b with
  | operand o =>
    obtain ⟨rfl, -⟩ : sel = true ∧ o.wf = true := by simpa [Slot.wf] using h
    exact o.size_bounds
  | grom g =>
    obtain ⟨rfl, rfl⟩ : sel = false ∧ g.index.isSome = idx := by simpa [Slot.wf] using h
    rcases g with ⟨v, _ | x⟩ <;> exact ⟨le_rfl, le_rfl⟩

end Sys2Proof

namespace Sys2Proof.Machine

/-! ### What format 6 reads -/

/-- Format 6 reads the three slots as the mode's flags select them, and lists them in the same order (R200). -/
theorem readOperands_move {cfg : Config} {op : Byte} {a : Count} {b c : Slot} (ha : a.wf (cfg.moveMap.numimmOf op) = true)
    (hb : b.wf (cfg.moveMap.selBOf op) (cfg.moveMap.idxBOf op) = true)
    (hc : c.wf (cfg.moveMap.selCOf op) (cfg.moveMap.idxCOf op) = true) (page : Word) (rest : List Byte) :
    readOperands cfg page op .move ⟨a.encode ++ b.encode ++ c.encode ++ rest, 1⟩ =
      .ok ([a.operandOf, b.operandOf, slotCOperand cfg op c], ⟨rest, 1 + a.size + b.size + c.size⟩) := by
  simp only [readOperands, List.append_assoc, Stream.count_encode ha, bind, Except.bind, Stream.slot_encode hb,
    Stream.slot_encode hc]
  rfl

/-- Settles O31: `readOperands_move` gives the record of a whole window (`transaction_of_read`) and says which bytes a shorter
window ends inside (`transaction_take`). -/
theorem formatMove_slots : Obligations.FormatMove := by
  intro cfg adr op i d a b c hlookup hformat ha hb hc
  have hroutine : d.format ≠ .unknown := by rw [hformat]; nofun
  have hread (rest : List Byte) :
      readOperands cfg (adr &&& pageMask) op d.format ⟨a.encode ++ b.encode ++ c.encode ++ rest, 1⟩ =
        .ok ([a.operandOf, b.operandOf, slotCOperand cfg op c], ⟨rest, 1 + a.size + b.size + c.size⟩) := by
    rw [hformat]
    exact readOperands_move ha hb hc _ rest
  refine ⟨fun m hm => ?truncated, fun rest => ?whole⟩
  case truncated =>
    have hwhole := hread []
    rw [List.append_nil] at hwhole
    exact transaction_take hlookup hroutine hwhole
      (by rwa [List.length_append, List.length_append, a.encode_length, b.encode_length, c.encode_length])
  case whole =>
    rw [transaction_of_read hlookup hroutine (hread rest), hformat]
    rfl

/-! ### The length of a MOVE -/

/-- The least and the greatest length of a MOVE: the opcode byte and the sizes of its slots (R208). -/
def moveSizes (m : MoveMap) (op : Byte) : Nat × Nat :=
  (1, 1) + countSizes (m.numimmOf op) + slotSizes (m.selBOf op) (m.idxBOf op) + slotSizes (m.selCOf op) (m.idxCOf op)

/-- What format 6 has read is three operands, each slot as long as its flags allow (R202, R204, R205). -/
theorem readOperands_move_ok {cfg : Config} {page : Word} {op : Byte} {t t' : Stream} {ops : List Operand}
    (h : readOperands cfg page op .move t = .ok (ops, t')) :
    ops.length = 3 ∧ t.off + (moveSizes cfg.moveMap op).1 ≤ t'.off + 1 ∧
      t'.off + 1 ≤ t.off + (moveSizes cfg.moveMap op).2 := by
  obtain ⟨⟨a, t1⟩, h1, h⟩ := except_bind_ok h
  obtain ⟨⟨b, t2⟩, h2, h⟩ := except_bind_ok h
  obtain ⟨⟨c, t3⟩, h3, h⟩ := except_bind_ok h
  cases h
  obtain ⟨ha, -, hoff1⟩ := Stream.count_ok h1
  obtain ⟨hb, -, hoff2⟩ := Stream.slot_ok h2
  obtain ⟨hc, -, hoff3⟩ := Stream.slot_ok h3
  have hsizeA := a.size_of_wf ha
  have hsizeB := b.size_of_wf hb
  have hsizeC := c.size_of_wf hc
  refine ⟨rfl, ?_⟩
  simp only [moveSizes, Prod.fst_add, Prod.snd_add, hoff3, hoff2, hoff1]
  omega

/-- The table of R208 is these sums under the default map, row by row. -/
theorem moveLengths_getElem? : ∀ mode : BitVec 5,
    moveLengths[mode.toNat]? = some (moveSizes defaultMoveMap (moveOpcode mode)) := by decide

/-- Settles O35: the byte resolves to the entry of `MOVE`, whose slots are as long as the flags of the mode allow
(`readOperands_move_ok`); their sums are the table of R208 (`moveLengths_getElem?`). -/
theorem moveLengthsByMode : Obligations.MoveLengthsByMode := by
  intro adr mode rest r h
  obtain ⟨op, rest, i, d, ops, t, hbytes, hlookup, hread, rfl⟩ := transaction_ok_reads h
  obtain ⟨rfl, rfl⟩ : moveOpcode mode = op ∧ _ = rest := List.cons.inj hbytes
  have hentry : lookup Config.default.optable (moveOpcode mode) = some (21, romEntry 21) :=
    lookup_defaultTable (by decide) (romEntry_covers_moveOpcode mode)
  cases hentry.symm.trans hlookup
  obtain ⟨hthree, hmin, hmax⟩ := readOperands_move_ok hread
  refine ⟨rfl, hthree, _, moveLengths_getElem? mode, ?_⟩
  have hmin : 1 + (moveSizes defaultMoveMap (moveOpcode mode)).1 ≤ t.off + 1 := hmin
  have hmax : t.off + 1 ≤ 1 + (moveSizes defaultMoveMap (moveOpcode mode)).2 := hmax
  simp only [okResult, contextAfter, Context.start_cur]
  omega

/-! ### The meaning of MOVE -/

/-- The opcode byte of a MOVE counts on from the first of the range, and bit 3 of the mode is the default `vreg` flag (R201,
R203). -/
theorem moveOpcode_fields : ∀ mode : BitVec 5, moveOpcode mode = 0x20 + mode.setWidth 8 ∧
    defaultMoveMap.vregOf (moveOpcode mode) = mode.getLsbD 3 := by decide

/-- Settles O45: the meaning is a completion that leaves the flag (`complete_keepsFlag`), at the opcode byte and with the
rendering of slot (c) that `moveOpcode_fields` gives. -/
theorem moveCompletes : Obligations.MoveCompletes := by
  intro s c mode sa sb sc hctx
  obtain ⟨hop, hvreg⟩ := moveOpcode_fields mode
  have hthird : slotCOperand Config.default (moveOpcode mode) sc =
      if mode.getLsbD 3 then sc.operandOf.trim 0x0007 else sc.operandOf := by
    rw [slotCOperand, ← hvreg]
    rfl
  dsimp only
  rw [exec, execMove, complete_keepsFlag hctx, hthird, hop]
  simp only [List.map_cons, List.map_nil, joinComma_cons, joinComma_one, List.append_assoc, List.cons_append,
    List.nil_append]
  rfl

end Sys2Proof.Machine
end

section
/-! The line of a record and its columns, and the outcome of an instruction handed over; then O38 and O48. -/

namespace Sys2Proof.Machine

/-! ### The line -/

/-- A field one wider than a text that fits has one more space. -/
theorem padr_succ {t : Text} {n : Nat} (h : t.length ≤ n) : padr t (n + 1) = padr t n ++ [' '] := by
  rw [padr, padr, Nat.sub_add_comm h, List.replicate_succ', List.append_assoc]

/-- The columns of the default layout, where the marker and the mnemonic fit their field of six (R232). -/
theorem lineOf_columns {w : Bool} {mnemonic : Text} (h : mnemonic.length ≤ 5) (a : Word) (optext : Text) :
    (lineOf Config.default a w mnemonic optext).take 4 = hex4 a ∧
    (lineOf Config.default a w mnemonic optext).drop 12 = optext ∧
    ((lineOf Config.default a w mnemonic optext).drop 5).take 7 = padr ((if w then ['D'] else []) ++ mnemonic) 7 := by
  have hmarked : ((if w then ['D'] else []) ++ mnemonic).length ≤ 6 := by
    cases w <;> simp <;> omega
  have hfield : (padr ((if w then ['D'] else []) ++ mnemonic) 7).length = 7 := by
    rw [padr_length]
    omega
  have hline : lineOf Config.default a w mnemonic optext =
      hex4 a ++ ([' '] ++ (padr ((if w then ['D'] else []) ++ mnemonic) 7 ++ optext)) := by
    rw [padr_succ hmarked]
    simp [lineOf, Config.default]
  rw [hline]
  refine ⟨List.take_left' (hex4_length a), ?_, ?_⟩
  · rw [← List.append_assoc, ← List.append_assoc]
    exact List.drop_left' (by simp [hfield])
  · rw [← List.append_assoc, List.drop_left' (by simp)]
    exact List.take_left' hfield

/-- The mnemonics of the default ROM fit the field beside a marker (R11). -/
theorem default_mnemonic_length : ∀ d ∈ defaultTable, d.mnemonic.length ≤ 5 := by decide

/-- The mnemonic of an `OK` outcome is that of the entry its opcode byte resolves to (R228). -/
theorem transaction_ok_mnemonic {cfg : Config} {rq : Request} {r : Result} (h : transaction cfg rq = .ok r) :
    ∃ d ∈ cfg.optable, r.mnemonic = d.mnemonic := by
  obtain ⟨op, rest, i, d, ops, t, -, hlookup, -, rfl⟩ := transaction_ok_reads h
  exact ⟨d, List.mem_of_getElem? (lookup_getElem? hlookup), rfl⟩

theorem transaction_ok_line {cfg : Config} {rq : Request} {r : Result} (h : transaction cfg rq = .ok r) :
    r.line = lineOf cfg rq.address r.wflag r.mnemonic r.optext := by
  obtain ⟨op, rest, i, d, ops, t, -, -, -, rfl⟩ := transaction_ok_reads h
  exact compose_eq_lineOf cfg _ _ _ _

/-- Settles O38: the record's line is `lineOf` of its own fields (`transaction_ok_line`), whose columns are fixed because the
default mnemonics have at most five characters (`lineOf_columns`). -/
theorem lineComposition : Obligations.LineComposition := by
  refine ⟨fun cfg rq r h => transaction_ok_line h, fun rq r h => ?_⟩
  obtain ⟨d, hd, hmnemonic⟩ := transaction_ok_mnemonic h
  rw [transaction_ok_line h]
  exact lineOf_columns (hmnemonic ▸ default_mnemonic_length d hd) _ _

/-! ### An instruction handed over -/

/-- Every step that takes up a transaction ends with the outcome of the spec's pseudocode (R228). -/
theorem reports_transaction (rq : Request) : Reports rq (transaction Config.default rq) := by
  intro s hrq
  rw [step_of_request hrq, settle_decode (s.begin_ctx rq)]
  rfl

/-- A window that decodes to an instruction ends the transaction with what its meaning answers. -/
theorem transaction_of_decode {rq : Request} {i : Instr} {n : Nat} (hdecode : decode rq.bytes = .instr i n) {s : State}
    {o : TxOutcome} (hexec : exec i (s.begin rq) = .next ((s.begin rq).finish o)) : transaction Config.default rq = o := by
  have hsettle := settle_decode (s.begin_ctx rq)
  rw [hdecode] at hsettle
  have hsame := Host.Outcome.next.inj (hsettle.symm.trans hexec)
  exact Option.some.inj (congrArg State.outcome hsame)

/-- Settles O48: the window decodes to the instruction (O10), so its meaning's record is the outcome of the transaction
(`transaction_of_decode`), which every step reports; its opcode is the window's first byte (O37). -/
theorem presentedInstructionIsRun : Obligations.PresentedInstructionIsRun := by
  intro s a i rest hwf
  obtain ⟨k, op, n, w, ops, hcomplete, -, -, hn⟩ := exec_complete i
  have hexec := (hcomplete (s.begin ⟨a, encode i ++ rest⟩)).trans (complete_of_ctx (s.begin_ctx _) k op n w ops)
  have htransaction := transaction_of_decode (rq := ⟨a, encode i ++ rest⟩) (decodeOfEncodeIsIdentity i rest hwf) hexec
  refine ⟨_, htransaction ▸ reports_transaction _, ?length, ?opcode, hexec⟩
  case length => rw [okResult_decoded, hn]
  case opcode =>
    obtain ⟨-, hhead⟩ := widthFlagFollowsFormatAndBitZero _ _ _ htransaction
    obtain ⟨_, _, first, body, -, -, hbytes, -⟩ := exists_readsBack i hwf
    rw [hbytes] at hhead ⊢
    rw [← Option.some.inj hhead]
    rfl

end Sys2Proof.Machine
end

section
/-! The scanning host, by its turns; then O50. -/

namespace Sys2Proof.Machine

/-! ### One turn -/

theorem lengthRange_pos (fmt : Format) : 1 ≤ (lengthRange fmt).1 := by
  cases fmt with
  | literal lit => cases lit <;> decide
  | unknown | reserved | twoOperand | noOperand | branch | oneOperand | move | screen => decide

/-- The diagnostic reports one byte (R234). -/
theorem transaction_unknown_length {cfg : Config} {rq : Request} {r : Result} (h : transaction cfg rq = .unknown r) :
    r.length = 1 := by
  obtain ⟨op, rest, hbytes, hcause⟩ := transaction_unknown h
  obtain ⟨a, bytes⟩ := rq
  obtain rfl : bytes = op :: rest := hbytes
  rcases hcause with hnone | ⟨i, d, hlookup, hformat⟩
  · cases (transaction_of_no_entry hnone a rest).symm.trans h
    rfl
  · cases (transaction_of_no_routine hlookup hformat a rest).symm.trans h
    rfl

/-- What an outcome reports as its length takes the host on (R52, R240). -/
theorem transaction_length_pos {cfg : Config} {rq : Request} {n : Nat} (h : (transaction cfg rq).length? = some n) :
    1 ≤ n := by
  cases ho : transaction cfg rq with
  | ok r =>
    rw [ho] at h
    cases h
    exact (lengthRange_pos r.format).trans (lengthWithinFormatBounds cfg rq r ho).1
  | unknown r =>
    rw [ho] at h
    cases h
    exact (transaction_unknown_length ho).ge
  | truncated k =>
    rw [ho] at h
    cases h

/-- What the host lists for address `a` (R240). -/
def scanned (cfg : Config) (image : List Byte) (base a : Nat) : TxOutcome :=
  transaction cfg ⟨BitVec.ofNat 16 a, scanWindow image base a⟩

/-- The host lists the outcome at its address and goes on after its length, if it reports one (R240). -/
theorem scanFrom_succ_of_lt {stop a : Nat} (h : a < stop) (cfg : Config) (image : List Byte) (base turns : Nat) :
    scanFrom cfg image base stop (turns + 1) a = (a, scanned cfg image base a) ::
      (scanned cfg image base a).length?.elim [] fun n => scanFrom cfg image base stop turns (a + n) := by
  rw [scanFrom, if_pos h, scanned]
  cases transaction cfg ⟨BitVec.ofNat 16 a, scanWindow image base a⟩ <;> rfl

theorem scanFrom_of_le {stop a : Nat} (h : stop ≤ a) (cfg : Config) (image : List Byte) (base turns : Nat) :
    scanFrom cfg image base stop turns a = [] := by
  cases turns with
  | zero => rfl
  | succ turns => rw [scanFrom, if_neg (Nat.not_lt.2 h)]

/-! ### A whole scan -/

/-- The lists that a scan from an address to its end makes (R240). -/
inductive Scans (cfg : Config) (image : List Byte) (base stop : Nat) : Nat → List (Nat × TxOutcome) → Prop
  | done {a : Nat} (h : stop ≤ a) : Scans cfg image base stop a []
  | stuck {a : Nat} (h : a < stop) (hlength : (scanned cfg image base a).length? = none) :
      Scans cfg image base stop a [(a, scanned cfg image base a)]
  | next {a n : Nat} {rest : List (Nat × TxOutcome)} (h : a < stop) (hlength : (scanned cfg image base a).length? = some n)
      (hpos : 1 ≤ n) (hrest : Scans cfg image base stop (a + n) rest) :
      Scans cfg image base stop a ((a, scanned cfg image base a) :: rest)

/-- Each turn goes on by at least a byte, so as many turns as the range has addresses are enough. -/
theorem scanFrom_scans (cfg : Config) (image : List Byte) (base stop : Nat) {turns a : Nat} (h : stop - a ≤ turns) :
    Scans cfg image base stop a (scanFrom cfg image base stop turns a) := by
  induction turns generalizing a with
  | zero =>
    rw [scanFrom]
    exact .done (by omega)
  | succ turns ih =>
    rcases Nat.lt_or_ge a stop with hlt | hle
    · rw [scanFrom_succ_of_lt hlt]
      cases hlength : (scanned cfg image base a).length? with
      | none => exact .stuck hlt hlength
      | some n =>
        have hpos : 1 ≤ n := transaction_length_pos hlength
        exact .next hlt hlength hpos (ih (by omega))
    · rw [scanFrom_of_le hle]
      exact .done hle

section
variable {cfg : Config} {image : List Byte} {base stop a : Nat} {out : List (Nat × TxOutcome)}

/-- Every entry lies in the range and holds the outcome at its address. -/
theorem Scans.mem (h : Scans cfg image base stop a out) :
    ∀ p ∈ out, a ≤ p.1 ∧ p.1 < stop ∧ p.2 = scanned cfg image base p.1 := by
  induction h with
  | done => simp
  | stuck hlt => simpa using hlt
  | next hlt _ _ _ ih =>
    refine List.forall_mem_cons.2 ⟨⟨le_rfl, hlt, rfl⟩, fun p hp => ?_⟩
    obtain ⟨hle, hin⟩ := ih p hp
    exact ⟨by omega, hin⟩

theorem Scans.head (h : Scans cfg image base stop a out) {p : Nat × TxOutcome} (hp : out.head? = some p) : p.1 = a := by
  cases h with
  | done => cases hp
  | stuck => cases hp; rfl
  | next => cases hp; rfl

/-- Each entry follows the one before it by that one's length. -/
theorem Scans.isChain (h : Scans cfg image base stop a out) :
    out.IsChain fun p q => ∃ n, p.2.length? = some n ∧ 1 ≤ n ∧ q.1 = p.1 + n := by
  induction h with
  | done => exact .nil
  | stuck => exact .singleton _
  | next _ hlength hpos hrest ih =>
    exact List.isChain_cons.2 ⟨fun q hq => ⟨_, hlength, hpos, hrest.head hq⟩, ih⟩

/-- A scan whose last entry reports a length ends there because it has reached the end. -/
theorem Scans.getLast (h : Scans cfg image base stop a out) {p : Nat × TxOutcome} {n : Nat}
    (hlast : out.getLast? = some p) (hn : p.2.length? = some n) : stop ≤ p.1 + n := by
  induction h with
  | done => cases hlast
  | stuck _ hlength =>
    cases hlast
    cases hlength.symm.trans hn
  | @next a m rest _ hlength _ hrest ih =>
    cases rest with
    | nil =>
      cases hlast
      cases hlength.symm.trans hn
      cases hrest with
      | done hle => exact hle
    | cons q rest => exact ih (by rwa [List.getLast?_cons_cons] at hlast)

theorem Scans.ne_nil (h : Scans cfg image base stop a out) (hlt : a < stop) : out ≠ [] := by
  cases h with
  | done hle => exact absurd hlt (Nat.not_lt.2 hle)
  | stuck | next => nofun

end

/-- Settles O50: the host's turns are enough for a whole scan (`scanFrom_scans`), and what is asked holds of every such list. -/
theorem scanAdvancesByLength : Obligations.ScanAdvancesByLength := by
  intro cfg image base start stop
  have h : Scans cfg image base stop start (scan cfg image base start stop) := scanFrom_scans cfg image base stop le_rfl
  exact ⟨h.mem, fun _ => h.head, h.isChain, fun _ _ => h.getLast, h.ne_nil⟩

end Sys2Proof.Machine
end
